-- ==== Sys2Proof/Word.lean ====
section
/-! DEFINITION. The widths of the block: bytes, 16-bit words, 32-bit command words, register indices (rules R5, R6, R22). -/

namespace Sys2Proof

/-- A byte is 8 bits (R6). -/
abbrev Byte := BitVec 8

/-- A "word" is always 16 bits (R6). -/
abbrev Word := BitVec 16

/-- A command word is 32 bits (R70). -/
abbrev Cmd := BitVec 32

/-- The index of one of the three word registers W0, W1, W2 (R22): 3 names no register. -/
abbrev RegIdx := Fin 3

end Sys2Proof
end

