-- ==== Sys2Proof/Config.lean ====
section
/-! DEFINITION. The quantities of rule R5: those the document fixes, those the spec chooses, and the one it leaves open (LATENCY, R175). -/

namespace Sys2Proof

/-- CRC_POLY (R5, R100). -/
abbrev Config.crcPoly : Byte := 0x31#8

/-- CRC_INIT (R5, R102). -/
abbrev Config.crcInit : Byte := 0xFF#8

/-- GROUP_BYTES: high byte, low byte, CRC byte (R5, R52). -/
abbrev Config.groupBytes : Nat := 3

/-- BUF_BYTES: addresses 0 to 8 exist (R5, R50). -/
abbrev Config.bufBytes : Nat := 9

/-- The multiplier of the temperature formula and divisor of the offset encoder (R5, R122, R126). -/
abbrev Config.tempScale : Nat := 175

/-- 45 degrees in Q16: 45 x 65536 (R122). -/
abbrev Config.tempBias : Nat := 2949120

/-- Half of `tempScale`, rounded down: what the offset encoder adds before dividing (R126). -/
abbrev Config.tempHalf : Nat := 87

/-- The multiplier of the humidity formula (R5, R124). -/
abbrev Config.humidityScale : Nat := 100

/-- The divisor of the pressure encoder (R5, R130). -/
abbrev Config.pressureDivisor : Nat := 100

/-- The largest value the encoders may write to a word register (R126, R130, R152). -/
abbrev Config.wordMax : Nat := 65535

/-- The forced-recalibration bias (R5, R132). -/
abbrev Config.frcBias : Nat := 0x8000

/-- The forced-recalibration failure response (R5, R132). -/
abbrev Config.frcFailed : Word := 0xFFFF#16

/-- The data-ready mask (R5, R136). -/
abbrev Config.readyMask : Word := 0x07FF#16

/-- LATENCY less one, for each command word: the spec leaves the number of clock cycles of a command open,
"at least 1; it may differ per command and per implementation" (R175, D22). No body: nothing can be proved of
its value. Only the clocked view of Machine/Port.lean reads it. Log 4. -/
opaque Config.extraCycles : Cmd → Nat

end Sys2Proof
end

