-- ==== Sys2Proof/Machine/Crc.lean ====
section
/-! DEFINITION. The CRC function of the block (rules R100, R101, R102) and the two bytes of a word (R6). -/

namespace Sys2Proof.Machine

/-- w[15:8], the document's `high_byte` (R6). -/
def highByte (w : Word) : Byte := w.extractLsb' 8 8

/-- w[7:0], the document's `low_byte` (R6). -/
def lowByte (w : Word) : Byte := w.extractLsb' 0 8

/-- One shift step; the high bit is tested on the value before the shift (R100). -/
def crcBit (a : Byte) : Byte :=
  if a.getLsbD 7 then (a <<< 1) ^^^ Config.crcPoly else a <<< 1

/-- `crcBit` applied `n` times. -/
def crcSteps : Nat → Byte → Byte
  | 0,     a => a
  | n + 1, a => crcSteps n (crcBit a)

/-- One byte step: the whole byte is XORed in, then eight shift steps (R101). -/
def crcByte (a b : Byte) : Byte := crcSteps 8 (a ^^^ b)

/-- The CRC of one word, high byte first, from CRC_INIT (R102, R54). -/
def crc8 (w : Word) : Byte :=
  crcByte (crcByte Config.crcInit (highByte w)) (lowByte w)

end Sys2Proof.Machine
end

