-- ==== Sys2Proof/Machine/State.lean ====
section
/-! DEFINITION. The state the spec gives the block (10_state.md), as plain data, its reset value (R40), the three fault
causes of the spec (R150 to R152), and the reasons a step of the model may stop. -/

namespace Sys2Proof.Machine

/-- The buffer BUF as cells (address, byte), in the canonical form `Memory.wf` of Machine/Ops.lean. -/
abbrev Memory := List Host.Cell

/-- What the host does to the block between two observations (R176): it offers a command word that the block accepts, or
it asserts `rst`. Reading the output ports changes nothing and is `State.ports`. -/
inductive HostInput where
  | command (c : Cmd)
  | reset
deriving DecidableEq, Repr

/-- The state of the block. There is no program counter (R24), no mode (R160) and no hidden state (R37). -/
structure State where
  /-- W0, W1, W2 (R22). -/
  w      : Vector Word 3
  /-- FLAGS: CK0, CK1, CK2 in bits 0 to 2, CALF in bit 4, INEX in bit 5, bits 3, 6, 7 reserved (R25). -/
  flags  : BitVec 8
  /-- ACC, the CRC accumulator (R29). -/
  acc    : Byte
  /-- RES, the result register, two's complement (R30). -/
  res    : BitVec 32
  /-- SER, the serial-number register (R31). -/
  ser    : BitVec 48
  /-- DOUT, the buffer read register (R32). -/
  dout   : Byte
  /-- BUF, nine bytes (R33). -/
  buf    : Memory
  /-- FAULT: sticky bits ILL (0), BND (1), RNG (2) (R34). -/
  fault  : BitVec 3
  /-- FCAUSE: the cause code of the first fault since reset, 0 if none (R35). -/
  fcause : BitVec 2
  /-- FCMD: the command word of the first fault since reset (R36). -/
  fcmd   : Cmd
  /-- The MODEL's own field: what the host does next, oldest first (R10, R20; log 2). -/
  inputs : List HostInput
deriving DecidableEq, Repr

/-- The reset state (R40); no input is pending (log 2). -/
def State.reset : State where
  w      := Vector.replicate 3 0x0000#16
  flags  := 0x00#8
  acc    := 0xFF#8
  res    := 0x00000000#32
  ser    := 0x000000000000#48
  dout   := 0x00#8
  buf    := []
  fault  := 0b000#3
  fcause := 0#2
  fcmd   := 0x00000000#32
  inputs := []

/-- The spec's faults (R150, R151, R152). Each is TAKEN: the block records it and goes on (R153, R158), so it is a next
state of the model, never a stop. -/
inductive FaultKind where
  | illegalCommand
  | bufferBounds
  | rangeError
deriving DecidableEq, Repr

/-- The reasons a step of the model stops with a fault: none. The step of the block is "a total, deterministic function of
(state, command word)" (R10) and a fault of the spec is a next state (R153), so nothing raises one. Log 8. -/
inductive Fault where
deriving DecidableEq, Repr

/-- The reasons a step of the model is refused. -/
inductive Refusal where
  /-- Raised by an arm of `exec` whose instruction has no meaning yet; safe (nothing is claimed of it). No arm raises it. -/
  | notModelled (mnemonic : String)
deriving DecidableEq, Repr

end Sys2Proof.Machine
end

