-- ==== Sys2Proof/Machine/Flags.lean ====
section
/-! DEFINITION. The flags of FLAGS (rule R25): reading and writing one flag, and the condition that sets each. -/

namespace Sys2Proof.Machine

/-- `f` with bit `k` made `b` and every other bit as it was. -/
def putBit (k : Nat) (b : Bool) (f : BitVec 8) : BitVec 8 :=
  if b then f ||| (1#8 <<< k) else f &&& ~~~(1#8 <<< k)

/-- CK[i], FLAGS bit i (R25, R26). -/
def State.ck (s : State) (i : RegIdx) : Bool := s.flags.getLsbD i.val

/-- CALF, FLAGS bit 4 (R25, R27). -/
def State.calf (s : State) : Bool := s.flags.getLsbD 4

/-- INEX, FLAGS bit 5 (R25, R28). -/
def State.inex (s : State) : Bool := s.flags.getLsbD 5

/-- What FLAGS reads as: bits 3, 6 and 7 are reserved and read 0 (R25). -/
def State.readFlags (s : State) : BitVec 8 := s.flags &&& 0b00110111#8

/-- CK[i] <- b. -/
def State.setCk (s : State) (i : RegIdx) (b : Bool) : State :=
  { s with flags := putBit i.val b s.flags }

/-- CALF <- b. -/
def State.setCalf (s : State) (b : Bool) : State :=
  { s with flags := putBit 4 b s.flags }

/-- INEX <- b. -/
def State.setInex (s : State) (b : Bool) : State :=
  { s with flags := putBit 5 b s.flags }

/-- What UNPACK writes to CK[i]: the computed CRC differs from the group's third byte (R26, R111). -/
def checksumMismatch (w : Word) (crc : Byte) : Bool := crc8 w != crc

/-- What FRC writes to CALF: the response is the failure sentinel (R27, R132). -/
def calibrationFailed (w : Word) : Bool := w == Config.frcFailed

/-- What PRESE writes to INEX: the division discarded a remainder (R28, R130). -/
def inexactPressure (p : BitVec 24) : Bool := p.toNat % Config.pressureDivisor != 0

end Sys2Proof.Machine
end

