-- ==== Sys2Proof/Machine/Operands.lean ====
section
/-! DEFINITION. The operand forms of the block. Registers and immediates are taken as they stand (R74); the addressing modes
"are two, both absolute" (R144): a 4-bit byte address, and a group index. -/

namespace Sys2Proof.Machine

/-- A byte address that exists, 0 to 8; none for 9 to 15 (R50, R56). -/
def byteAddr (a : BitVec 4) : Option Nat :=
  if a.toNat < Config.bufBytes then some a.toNat else none

/-- Group i starts at address 3i (R33). -/
def groupAddr (i : RegIdx) : Nat := Config.groupBytes * i.val

/-- The address of the CRC byte of group i (R33). -/
def groupCrcAddr (i : RegIdx) : Nat := groupAddr i + 2

/-- The groups that a count n names: 0 to n-1 (R111). -/
def groupsBelow (n : BitVec 2) : List RegIdx :=
  ([0, 1, 2] : List RegIdx).filter (fun i => i.val < n.toNat)

end Sys2Proof.Machine
end

