-- ==== Sys2Proof/Machine/Ops.lean ====
section
/-! DEFINITION. The named operations over the buffer, the word registers and the fault registers: MemRead and MemWrite of
rule R8, register access (R22), fault entry (R153), reset (R40) and the output ports (R21). There is no return from a fault:
"There is no return-from-fault command and nothing to return to" (R158). -/

namespace Sys2Proof.Machine

/-! ### The buffer -/

/-- What an address without a cell reads as: the reset contents of BUF (R40; log 5). -/
def blank : Byte := 0x00#8

/-- The canonical form: addresses strictly rising, every address exists (R50), no cell that holds `blank`. -/
abbrev Memory.wf (m : Memory) : Prop :=
  m.Pairwise (fun x y => x.1 < y.1) ∧ ∀ c ∈ m, c.1 < Config.bufBytes ∧ c.2 ≠ blank

/-- BUF[a] (R8). -/
def Memory.read : Memory → Nat → Byte
  | [],           _ => blank
  | (k, v) :: m, a => if k = a then v else Memory.read m a

/-- Drop the cell at `a`. -/
def Memory.erase (m : Memory) (a : Nat) : Memory :=
  m.filter (fun c => c.1 != a)

/-- Put a cell before the first one of a higher address. -/
def Memory.putCell (a : Nat) (b : Byte) : Memory → Memory
  | [] => [(a, b)]
  | (k, v) :: m => if a < k then (a, b) :: (k, v) :: m else (k, v) :: Memory.putCell a b m

/-- BUF[a] <- b, keeping the canonical form: writing `blank` removes the cell. -/
def Memory.write (m : Memory) (a : Nat) (b : Byte) : Memory :=
  if b = blank then m.erase a else Memory.putCell a b (m.erase a)

/-- MemRead(a, n): "the byte at the lowest address most significant" (R8, R52). -/
def Memory.memRead (m : Memory) (a : Nat) : (n : Nat) → BitVec (8 * n)
  | 0     => 0#0
  | n + 1 => Memory.memRead m a n ++ m.read (a + n)

/-- MemWrite(a, n, v): "the most significant byte at the lowest address" (R8, R52). -/
def Memory.memWrite (m : Memory) (a : Nat) : (n : Nat) → BitVec (8 * n) → Memory
  | 0,     _ => m
  | n + 1, v => (Memory.memWrite m a n (v.extractLsb' 8 (8 * n))).write (a + n) (v.setWidth 8)

/-- BUF[a] of a state. -/
def State.readByte (s : State) (a : Nat) : Byte := s.buf.read a

/-! ### The word registers -/

/-- W[i] (R8, R22). -/
def State.readW (s : State) (i : RegIdx) : Word := s.w[i.val]

/-- W[i] <- v (R8, R22). -/
def State.writeW (s : State) (i : RegIdx) (v : Word) : State :=
  { s with w := s.w.set i.val v i.isLt }

/-- W[i] <- v and CK[i] <- 0: a word that did not come from a checked group (R26, R126, R130, R141). -/
def State.loadW (s : State) (i : RegIdx) (v : Word) : State :=
  (s.writeW i v).setCk i false

/-! ### Taking a fault -/

/-- The cause code k (R150, R151, R152). -/
def FaultKind.code : FaultKind → BitVec 2
  | .illegalCommand => 1#2
  | .bufferBounds   => 2#2
  | .rangeError     => 3#2

/-- FAULT with bit k-1 set and the other bits kept (R153 step 1). -/
def FaultKind.mark : FaultKind → BitVec 3 → BitVec 3
  | .illegalCommand, f => f ||| 0b001#3
  | .bufferBounds,   f => f ||| 0b010#3
  | .rangeError,     f => f ||| 0b100#3

/-- Fault entry, `raise F(c)` (R153): the fault's bit is set; cause and command word are recorded if FCAUSE is 0; nothing
else is written and the command ends. -/
def raiseFault (k : FaultKind) (c : Cmd) (s : State) : State :=
  { s with
    fault  := k.mark s.fault
    fcause := if s.fcause = 0#2 then k.code else s.fcause
    fcmd   := if s.fcause = 0#2 then c else s.fcmd }

/-! ### The host -/

/-- The host asserts `rst`: every register takes its reset value (R40, R170). What the host does afterwards is no register
and stays (log 6). -/
def hostReset (s : State) : State := { State.reset with inputs := s.inputs }

/-- The read-only output ports (R21). BUF has none. -/
structure OutputPorts where
  w0     : BitVec 16
  w1     : BitVec 16
  w2     : BitVec 16
  flags  : BitVec 8
  acc    : BitVec 8
  res    : BitVec 32
  ser    : BitVec 48
  dout   : BitVec 8
  fault  : BitVec 3
  fcause : BitVec 2
  fcmd   : BitVec 32
deriving DecidableEq, Repr

/-- What the host reads on the output ports (R21, R176). -/
def State.ports (s : State) : OutputPorts where
  w0     := s.readW 0
  w1     := s.readW 1
  w2     := s.readW 2
  flags  := s.readFlags
  acc    := s.acc
  res    := s.res
  ser    := s.ser
  dout   := s.dout
  fault  := s.fault
  fcause := s.fcause
  fcmd   := s.fcmd

end Sys2Proof.Machine
end

