-- ==== Sys2Proof/Machine/CrcEngine.lean ====
section
/-! DEFINITION. The meaning of CRC8 (40_crc_engine.md, rule R103). -/

namespace Sys2Proof.Machine

/-- CRC8: ACC <- crc8(W[i]) (R103, R29). -/
def execCrc8 (i : RegIdx) (s : State) : Host.Outcome State Fault Refusal :=
  .next { s with acc := crc8 (s.readW i) }

end Sys2Proof.Machine
end

