-- ==== Sys2Proof/Syntax.lean ====
section
/-! DEFINITION. The 15 commands of the block (rule R72), one constructor per row of spec/opcode_table.json, with the
operands of rule R74. The operand types admit exactly the values the encoding admits, so every term stands for one legal
command word: a register index is one of three (R74: "value 3 selects nothing and is illegal"), a count has 2 bits, a buffer
address 4 bits (9 to 15 decode and fault at execution), immediates 8, 16 or 24 bits. -/

namespace Sys2Proof

inductive Instr where
  /-- NOP: changes no state (R140). -/
  | nop
  /-- LDW wi, imm16: load a word register with an immediate (R141). -/
  | ldw (i : RegIdx) (imm16 : BitVec 16)
  /-- STB a, d: store one byte in the buffer (R142). -/
  | stb (a : BitVec 4) (d : BitVec 8)
  /-- LDB a: read one buffer byte into DOUT (R143). -/
  | ldb (a : BitVec 4)
  /-- CRC8 wi: the CRC of a word register into ACC (R103). -/
  | crc8 (i : RegIdx)
  /-- PACK wi: word register i to group i of the buffer (R110). -/
  | pack (i : RegIdx)
  /-- UNPACK n: the first n groups to W[0..n-1], with a checksum comparison each (R111). -/
  | unpack (n : BitVec 2)
  /-- CO2 wi: CO2 or altitude decode (R120). -/
  | co2 (i : RegIdx)
  /-- TEMP wi: temperature or temperature-offset decode (R122, R128). -/
  | temp (i : RegIdx)
  /-- RH wi: humidity decode (R124). -/
  | rh (i : RegIdx)
  /-- TOFSE wi, x: temperature-offset encode (R126). -/
  | tofse (i : RegIdx) (x : BitVec 24)
  /-- PRESE wi, p: ambient-pressure encode (R130). -/
  | prese (i : RegIdx) (p : BitVec 24)
  /-- FRC wi: forced-recalibration result decode (R132). -/
  | frc (i : RegIdx)
  /-- SER: the serial number from W0, W1, W2 (R134). -/
  | ser
  /-- DRDY wi: data-ready decode (R136). -/
  | drdy (i : RegIdx)
deriving DecidableEq, Repr

end Sys2Proof
end

