-- ==== Sys2Proof/WellFormed.lean ====
section
/-! DEFINITION. Which command words are well formed: the opcode table of rule R72 as match and mask rows, the formats of
rule R71, and the three ways a word is illegal (rule R75). Written from the table, not from the decoding algorithm of rule
R73 (Decode.lean). The check stands on the WORDS because there an ill-formed command can be written: every term of `Instr`
is well formed by the types of its operands. -/

namespace Sys2Proof

/-- The seven formats (R71). -/
inductive Format where
  | z | r | n | i16 | i24 | sb | lb
deriving DecidableEq, Repr

/-- The bits below the opcode that the format shows as "0" and that must all be zero (R71). -/
def Format.zeroBits : Format → Cmd
  | .z   => 0x03FFFFFF#32
  | .r   => 0x00FFFFFF#32
  | .n   => 0x00FFFFFF#32
  | .i16 => 0x00FF0000#32
  | .i24 => 0x00000000#32
  | .sb  => 0x03FFF000#32
  | .lb  => 0x03FFF0FF#32

/-- The formats whose IDX field names a word register, so that IDX = 3 is illegal (R71, R74). -/
def Format.namesRegister : Format → Bool
  | .r | .i16 | .i24 => true
  | .z | .n | .sb | .lb => false

/-- A row of the opcode map (R72). -/
structure OpcodeRow where
  mnemonic : String
  format   : Format
  pattern  : Cmd
  mask     : Cmd
deriving DecidableEq, Repr

/-- The opcode map (R72). The extra condition "IDX not 3" is the format's (`Format.namesRegister`). -/
def opcodeTable : List OpcodeRow :=
  [ ⟨"NOP",    .z,   0x00000000#32, 0xFFFFFFFF#32⟩,
    ⟨"LDW",    .i16, 0x04000000#32, 0xFCFF0000#32⟩,
    ⟨"STB",    .sb,  0x08000000#32, 0xFFFFF000#32⟩,
    ⟨"LDB",    .lb,  0x0C000000#32, 0xFFFFF0FF#32⟩,
    ⟨"CRC8",   .r,   0x20000000#32, 0xFCFFFFFF#32⟩,
    ⟨"PACK",   .r,   0x40000000#32, 0xFCFFFFFF#32⟩,
    ⟨"UNPACK", .n,   0x44000000#32, 0xFCFFFFFF#32⟩,
    ⟨"CO2",    .r,   0x80000000#32, 0xFCFFFFFF#32⟩,
    ⟨"TEMP",   .r,   0x84000000#32, 0xFCFFFFFF#32⟩,
    ⟨"RH",     .r,   0x88000000#32, 0xFCFFFFFF#32⟩,
    ⟨"TOFSE",  .i24, 0x8C000000#32, 0xFC000000#32⟩,
    ⟨"PRESE",  .i24, 0x90000000#32, 0xFC000000#32⟩,
    ⟨"FRC",    .r,   0x94000000#32, 0xFCFFFFFF#32⟩,
    ⟨"SER",    .z,   0x98000000#32, 0xFFFFFFFF#32⟩,
    ⟨"DRDY",   .r,   0x9C000000#32, 0xFCFFFFFF#32⟩ ]

/-- The command whose row an instruction is an instance of. -/
def Instr.mnemonic : Instr → String
  | .nop       => "NOP"
  | .ldw _ _   => "LDW"
  | .stb _ _   => "STB"
  | .ldb _     => "LDB"
  | .crc8 _    => "CRC8"
  | .pack _    => "PACK"
  | .unpack _  => "UNPACK"
  | .co2 _     => "CO2"
  | .temp _    => "TEMP"
  | .rh _      => "RH"
  | .tofse _ _ => "TOFSE"
  | .prese _ _ => "PRESE"
  | .frc _     => "FRC"
  | .ser       => "SER"
  | .drdy _    => "DRDY"

/-- A word `c` selects the row "when (c & mask) = match and, for rows marked IDX not 3, c[25:24] != 3" (R72). -/
def OpcodeRow.selects (r : OpcodeRow) (c : Cmd) : Bool :=
  (c &&& r.mask == r.pattern) && !(r.format.namesRegister && (c &&& 0x03000000#32 == 0x03000000#32))

/-- A row has the opcode of the word: bits 31 to 26 agree (R70). -/
def OpcodeRow.sameOpcode (r : OpcodeRow) (c : Cmd) : Bool :=
  c &&& 0xFC000000#32 == r.pattern &&& 0xFC000000#32

/-- The well-formed command words: those that select a row of the table (R72). -/
def wellFormedWord (c : Cmd) : Bool :=
  opcodeTable.any (·.selects c)

/-- R75 (a): "any word whose OP is one of the 49 reserved values". -/
def reservedOpcodeWord (c : Cmd) : Bool :=
  !opcodeTable.any (·.sameOpcode c)

/-- R75 (b): "a word of format R, I16 or I24 with IDX = 3". -/
def noRegisterWord (c : Cmd) : Bool :=
  opcodeTable.any (fun r => r.sameOpcode c && r.format.namesRegister)
    && (c &&& 0x03000000#32 == 0x03000000#32)

/-- R75 (c): "a word with a nonzero bit in a field its format shows as 0". -/
def nonzeroFieldWord (c : Cmd) : Bool :=
  opcodeTable.any (fun r => r.sameOpcode c && (c &&& r.format.zeroBits != 0#32))

end Sys2Proof
end

