-- ==== Sys2Proof/Decode.lean ====
section
/-! DEFINITION. Decoding (rules R70, R73, R74), total on 32-bit words and reading no state, with the illegal words rejected
by name (R75); then the encoder, written from the encodings of the instruction templates; then the host's view of both on
the opcode table's bit numbering. -/

namespace Sys2Proof

/-- Why a word is illegal: the three classes of R75, in the order the decoder looks at them (log 11). -/
inductive Illegal where
  | reservedOpcode
  | noSuchRegister
  | nonzeroField
deriving DecidableEq, Repr

/-- The decoder's answer: "either one of the 15 commands with its operands or the verdict illegal" (R73). -/
inductive Verdict where
  | command (i : Instr)
  | illegal (why : Illegal)
deriving DecidableEq, Repr

/-- OP = cmd[31:26] (R70). -/
def opField (c : Cmd) : BitVec 6 := c.extractLsb' 26 6

/-- IDX = cmd[25:24], also the count N of format N (R70, R74). -/
def idxField (c : Cmd) : BitVec 2 := c.extractLsb' 24 2

/-- IMM24 = cmd[23:0] (R70). -/
def imm24Field (c : Cmd) : BitVec 24 := c.extractLsb' 0 24

/-- IMM16 = cmd[15:0] (R74). -/
def imm16Field (c : Cmd) : BitVec 16 := c.extractLsb' 0 16

/-- ADDR = cmd[11:8] (R74). -/
def addrField (c : Cmd) : BitVec 4 := c.extractLsb' 8 4

/-- DATA = cmd[7:0] (R74). -/
def dataField (c : Cmd) : BitVec 8 := c.extractLsb' 0 8

/-- The word register that IDX selects: "value 3 selects nothing" (R74). -/
def regOfIdx (k : BitVec 2) : Option RegIdx :=
  if h : k.toNat < 3 then some ⟨k.toNat, h⟩ else none

/-- A command whose field `mustBeZero` is required to be zero (R71). -/
def zeroChecked {w : Nat} (mustBeZero : BitVec w) (i : Instr) : Verdict :=
  if mustBeZero = 0 then .command i else .illegal .nonzeroField

/-- A command that names a word register through IDX, and whose field `mustBeZero` is required to be zero (R71, R74). -/
def regChecked {w : Nat} (c : Cmd) (mustBeZero : BitVec w) (mk : RegIdx → Instr) : Verdict :=
  match regOfIdx (idxField c) with
  | none   => .illegal .noSuchRegister
  | some i => zeroChecked mustBeZero (mk i)

/-- The decoder of R73. -/
def decode (c : Cmd) : Verdict :=
  match (opField c).toNat with
  | 0x00 => zeroChecked (c.extractLsb' 0 26) .nop
  | 0x01 => regChecked c (c.extractLsb' 16 8) (fun i => .ldw i (imm16Field c))
  | 0x02 => zeroChecked (c.extractLsb' 12 14) (.stb (addrField c) (dataField c))
  | 0x03 => zeroChecked (c.extractLsb' 12 14 ++ c.extractLsb' 0 8) (.ldb (addrField c))
  | 0x08 => regChecked c (imm24Field c) .crc8
  | 0x10 => regChecked c (imm24Field c) .pack
  | 0x11 => zeroChecked (imm24Field c) (.unpack (idxField c))
  | 0x20 => regChecked c (imm24Field c) .co2
  | 0x21 => regChecked c (imm24Field c) .temp
  | 0x22 => regChecked c (imm24Field c) .rh
  | 0x23 => regChecked c (0#0) (fun i => .tofse i (imm24Field c))
  | 0x24 => regChecked c (0#0) (fun i => .prese i (imm24Field c))
  | 0x25 => regChecked c (imm24Field c) .frc
  | 0x26 => zeroChecked (c.extractLsb' 0 26) .ser
  | 0x27 => regChecked c (imm24Field c) .drdy
  | _    => .illegal .reservedOpcode

/-- A command word from its primary fields: OP in bits 31 to 26, IDX in 25 to 24, IMM24 in 23 to 0 (R70). -/
def wordOf (op : BitVec 6) (idx : BitVec 2) (imm24 : BitVec 24) : Cmd :=
  op ++ idx ++ imm24

/-- The IDX field that names a word register (R74). -/
def idxOfReg (i : RegIdx) : BitVec 2 := BitVec.ofNat 2 i.val

/-- The one encoding of each command (R71, R72, and the line "Encoding" of each instruction template). -/
def encode : Instr → Cmd
  | .nop         => wordOf 0x00#6 0#2 0#24
  | .ldw i imm16 => wordOf 0x01#6 (idxOfReg i) (0#8 ++ imm16)
  | .stb a d     => wordOf 0x02#6 0#2 (0#12 ++ a ++ d)
  | .ldb a       => wordOf 0x03#6 0#2 (0#12 ++ a ++ 0#8)
  | .crc8 i      => wordOf 0x08#6 (idxOfReg i) 0#24
  | .pack i      => wordOf 0x10#6 (idxOfReg i) 0#24
  | .unpack n    => wordOf 0x11#6 n 0#24
  | .co2 i       => wordOf 0x20#6 (idxOfReg i) 0#24
  | .temp i      => wordOf 0x21#6 (idxOfReg i) 0#24
  | .rh i        => wordOf 0x22#6 (idxOfReg i) 0#24
  | .tofse i x   => wordOf 0x23#6 (idxOfReg i) x
  | .prese i p   => wordOf 0x24#6 (idxOfReg i) p
  | .frc i       => wordOf 0x25#6 (idxOfReg i) 0#24
  | .ser         => wordOf 0x26#6 0#2 0#24
  | .drdy i      => wordOf 0x27#6 (idxOfReg i) 0#24

/-- The command word whose bits, numbered as spec/opcode_table.json numbers them, are the low `nbits` bits of `w`
and zero above. Every command is one 32-bit word (R70), so the table's numbering is the word's own. -/
def tableWord (nbits w : Nat) : Cmd := BitVec.ofNat 32 (w % 2 ^ nbits)

/-- What the decoder reads from a table row's word; an instruction longer than 32 bits does not exist (R70). -/
def decodeTableWord (nbits w : Nat) : Option Instr :=
  if nbits ≤ 32 then
    match decode (tableWord nbits w) with
    | .command i => some i
    | .illegal _ => none
  else none

end Sys2Proof
end

