-- ==== Sys2Proof/Machine/HostAccess.lean ====
section
/-! DEFINITION. The meanings of NOP, LDW, STB, LDB (43_host_access.md, rules R140 to R144). The command word that a fault
entry records is the instruction's one encoding (log 3). -/

namespace Sys2Proof.Machine

/-- NOP changes no state (R140). -/
def execNop (s : State) : Host.Outcome State Fault Refusal :=
  .next s

/-- LDW: W[i] <- imm16, CK[i] <- 0 (R141). -/
def execLdw (i : RegIdx) (imm16 : BitVec 16) (s : State) : Host.Outcome State Fault Refusal :=
  .next (s.loadW i imm16)

/-- STB: BUF[a] <- d, or BufferBounds for an address that does not exist (R142, R151). -/
def execStb (a : BitVec 4) (d : BitVec 8) (s : State) : Host.Outcome State Fault Refusal :=
  match byteAddr a with
  | some addr => .next { s with buf := s.buf.memWrite addr 1 d }
  | none      => .next (raiseFault .bufferBounds (encode (.stb a d)) s)

/-- LDB: DOUT <- BUF[a], or BufferBounds for an address that does not exist (R143, R151). -/
def execLdb (a : BitVec 4) (s : State) : Host.Outcome State Fault Refusal :=
  match byteAddr a with
  | some addr => .next { s with dout := s.buf.memRead addr 1 }
  | none      => .next (raiseFault .bufferBounds (encode (.ldb a)) s)

end Sys2Proof.Machine
end

