-- ==== Sys2Proof/Machine/UnitConverter.lean ====
section
/-! DEFINITION. The meanings of CO2, TEMP, RH, TOFSE, PRESE, FRC, SER, DRDY (42_unit_converter.md, rules R120 to R136).
Arithmetic is on Nat and Int and narrowed once, at the end (R7). No converter reads a flag (R135). -/

namespace Sys2Proof.Machine

/-- `175 * raw - 45 * 65536`, the temperature in signed Q16 degrees (R122). -/
def tempQ16 (raw : Word) : Int := Config.tempScale * raw.toNat - Config.tempBias

/-- `100 * raw`, the relative humidity in Q16 percent (R124). -/
def humidityQ16 (raw : Word) : Nat := Config.humidityScale * raw.toNat

/-- `(x + 87) div 175`, the raw code of a temperature offset (R126). -/
def offsetQuotient (x : BitVec 24) : Nat := (x.toNat + Config.tempHalf) / Config.tempScale

/-- `p div 100`, the pressure in whole hectopascals (R130). -/
def pressureQuotient (p : BitVec 24) : Nat := p.toNat / Config.pressureDivisor

/-- `raw - 0x8000`, the forced-recalibration correction (R132). -/
def correction (raw : Word) : Int := (raw.toNat : Int) - Config.frcBias

/-- The status word says that data are ready (R136). -/
def dataReady (status : Word) : Bool := status &&& Config.readyMask != 0

/-- CO2: RES <- zext_32(W[i]) (R120). -/
def execCo2 (i : RegIdx) (s : State) : Host.Outcome State Fault Refusal :=
  .next { s with res := (s.readW i).setWidth 32 }

/-- TEMP: RES <- sext_32(175 * W[i] - 2949120) (R122). -/
def execTemp (i : RegIdx) (s : State) : Host.Outcome State Fault Refusal :=
  .next { s with res := BitVec.ofInt 32 (tempQ16 (s.readW i)) }

/-- RH: RES <- 100 * W[i] (R124). -/
def execRh (i : RegIdx) (s : State) : Host.Outcome State Fault Refusal :=
  .next { s with res := BitVec.ofNat 32 (humidityQ16 (s.readW i)) }

/-- TOFSE: W[i] <- q and CK[i] <- 0, or RangeError when q does not fit a word (R126, R152). -/
def execTofse (i : RegIdx) (x : BitVec 24) (s : State) : Host.Outcome State Fault Refusal :=
  if offsetQuotient x > Config.wordMax then
    .next (raiseFault .rangeError (encode (.tofse i x)) s)
  else
    .next (s.loadW i (BitVec.ofNat 16 (offsetQuotient x)))

/-- PRESE: W[i] <- q, CK[i] <- 0 and INEX, or RangeError when q does not fit a word (R130, R152). -/
def execPrese (i : RegIdx) (p : BitVec 24) (s : State) : Host.Outcome State Fault Refusal :=
  if pressureQuotient p > Config.wordMax then
    .next (raiseFault .rangeError (encode (.prese i p)) s)
  else
    .next ((s.loadW i (BitVec.ofNat 16 (pressureQuotient p))).setInex (inexactPressure p))

/-- FRC: CALF, and RES unless the calibration failed (R132). -/
def execFrc (i : RegIdx) (s : State) : Host.Outcome State Fault Refusal :=
  if calibrationFailed (s.readW i) then
    .next (s.setCalf true)
  else
    .next { s.setCalf false with res := BitVec.ofInt 32 (correction (s.readW i)) }

/-- SER: SER <- W[0] : W[1] : W[2] (R134, R55). -/
def execSer (s : State) : Host.Outcome State Fault Refusal :=
  .next { s with ser := s.readW 0 ++ s.readW 1 ++ s.readW 2 }

/-- DRDY: RES <- 1 or 0 (R136). -/
def execDrdy (i : RegIdx) (s : State) : Host.Outcome State Fault Refusal :=
  .next { s with res := if dataReady (s.readW i) then 1#32 else 0#32 }

end Sys2Proof.Machine
end

