-- ==== Sys2Proof/Machine/WordCodec.lean ====
section
/-! DEFINITION. The meanings of PACK and UNPACK (41_word_codec.md, rules R110, R111). -/

namespace Sys2Proof.Machine

/-- The 3-byte group of a word: high byte, low byte, CRC byte (R52, R110). -/
def groupOf (w : Word) : BitVec (8 * 3) := w ++ crc8 w

/-- PACK: MemWrite(3i, 3, W[i] : crc8(W[i])) (R110). -/
def execPack (i : RegIdx) (s : State) : Host.Outcome State Fault Refusal :=
  .next { s with buf := s.buf.memWrite (groupAddr i) 3 (groupOf (s.readW i)) }

/-- The word of group i: MemRead(3i, 2) (R111). -/
def State.groupWord (s : State) (i : RegIdx) : Word := s.buf.memRead (groupAddr i) 2

/-- The CRC byte of group i: BUF[3i+2] (R111). -/
def State.groupCrc (s : State) (i : RegIdx) : Byte := s.readByte (groupCrcAddr i)

/-- One iteration of UNPACK: the word is written whether or not the check passes, and CK[i] is set or cleared (R111). -/
def unpackGroup (s : State) (i : RegIdx) : State :=
  (s.writeW i (s.groupWord i)).setCk i (checksumMismatch (s.groupWord i) (s.groupCrc i))

/-- UNPACK: the first n groups; the iterations are independent, since none writes the buffer (R111). -/
def execUnpack (n : BitVec 2) (s : State) : Host.Outcome State Fault Refusal :=
  .next ((groupsBelow n).foldl unpackGroup s)

end Sys2Proof.Machine
end

