-- ==== Sys2Proof/Machine/Dispatch.lean ====
section
/-! DEFINITION. The meaning of each command, one arm per row of spec/opcode_table.json, in the table's order. -/

namespace Sys2Proof.Machine

def exec (i : Instr) (s : State) : Host.Outcome State Fault Refusal :=
  match i with
  | .nop => Sys2Proof.Machine.execNop s
  | .ldw r imm16 => Sys2Proof.Machine.execLdw r imm16 s
  | .stb a d => Sys2Proof.Machine.execStb a d s
  | .ldb a => Sys2Proof.Machine.execLdb a s
  | .crc8 r => Sys2Proof.Machine.execCrc8 r s
  | .pack r => Sys2Proof.Machine.execPack r s
  | .unpack n => Sys2Proof.Machine.execUnpack n s
  | .co2 r => Sys2Proof.Machine.execCo2 r s
  | .temp r => Sys2Proof.Machine.execTemp r s
  | .rh r => Sys2Proof.Machine.execRh r s
  | .tofse r x => Sys2Proof.Machine.execTofse r x s
  | .prese r p => Sys2Proof.Machine.execPrese r p s
  | .frc r => Sys2Proof.Machine.execFrc r s
  | .ser => Sys2Proof.Machine.execSer s
  | .drdy r => Sys2Proof.Machine.execDrdy r s

end Sys2Proof.Machine
end

