-- ==== Sys2Proof/Machine/Command.lean ====
section
/-! DEFINITION. One command word from the command port (rule R73), and taking what the host does next (rules R20, R176).
Step.lean and Port.lean call these. -/

namespace Sys2Proof.Machine

/-- `step(state, c)` of R73: an illegal word raises IllegalCommand (R150), any other performs its command's rule. -/
def runCommand (c : Cmd) (s : State) : Host.Outcome State Fault Refusal :=
  match decode c with
  | .illegal _ => .next (raiseFault .illegalCommand c s)
  | .command i => exec i s

/-- What the host does next, and the state without that input; none when the host does nothing. -/
def takeInput (s : State) : Option (HostInput × State) :=
  match s.inputs with
  | []      => none
  | e :: es => some (e, { s with inputs := es })

/-- What the block does on one input of the host (R176). -/
def onInput (e : HostInput) (s : State) : Host.Outcome State Fault Refusal :=
  match e with
  | .command c => runCommand c s
  | .reset     => .next (hostReset s)

/-- A state in which the host's next input is the command word `c` (log 2). -/
def offerCommand (c : Cmd) (s : State) : State :=
  { s with inputs := .command c :: s.inputs }

end Sys2Proof.Machine
end

