-- ==== Sys2Proof/Machine/Step.lean ====
section
/-! DEFINITION. The step: the block takes the host's next input and does what the spec says (rules R10, R73, R176). A host
that does nothing leaves the state unchanged (log 1). -/

namespace Sys2Proof.Machine

def step (s : State) : Host.Outcome State Fault Refusal :=
  match takeInput s with
  | none         => .next s
  | some (e, s') => onInput e s'

/-- `s` with the opcode table's word offered as the host's next command, so that the next step runs it (log 2). -/
def State.withFetchWord (s : State) (nbits w : Nat) : State :=
  offerCommand (tableWord nbits w) s

end Sys2Proof.Machine
end

