-- ==== Sys2Proof/Machine/Assembler.lean ====
section
/-! DEFINITION. The spec's own assembly notation (rule R78) and its pseudo-instructions (rule R79): from the text of a line
to a statement with plain numbers as operands, from a statement to command words. A statement is well formed when every
operand fits its field and every register is w0, w1 or w2; the assembler refuses any other. -/

namespace Sys2Proof.Machine

/-- A statement of the notation, its operands the numbers as written (R78, R79). -/
inductive Stmt where
  | nop
  | ldw (w imm16 : Nat)
  | stb (addr data : Nat)
  | ldb (addr : Nat)
  | crc8 (w : Nat)
  | pack (w : Nat)
  | unpack (n : Nat)
  | co2 (w : Nat)
  | temp (w : Nat)
  | rh (w : Nat)
  | tofse (w imm24 : Nat)
  | prese (w imm24 : Nat)
  | frc (w : Nat)
  | ser
  | drdy (w : Nat)
  /-- Pseudo-instruction: temperature-offset decode (R79, R128). -/
  | tofsd (w : Nat)
  /-- Pseudo-instruction: altitude decode (R79). -/
  | altd (w : Nat)
  /-- Pseudo-instruction: altitude encode (R79, R129). -/
  | alte (w imm16 : Nat)
  /-- Pseudo-instruction: load one received group (R79). -/
  | stg (g hi lo crc : Nat)
deriving DecidableEq, Repr

/-- Every operand fits its field and names one of w0 to w2 (R74, R78); the group of STG is 0, 1 or 2 (R79;
DESIGN CHOICE: any other is refused, log 9). -/
def Stmt.wellFormed : Stmt → Bool
  | .nop | .ser => true
  | .crc8 w | .pack w | .co2 w | .temp w | .rh w | .frc w | .drdy w | .tofsd w | .altd w => w < 3
  | .unpack n => n < 4
  | .ldb a => a < 16
  | .ldw w v | .alte w v => w < 3 && v < 2 ^ 16
  | .tofse w v | .prese w v => w < 3 && v < 2 ^ 24
  | .stb a d => a < 16 && d < 2 ^ 8
  | .stg g h l c => g < 3 && h < 2 ^ 8 && l < 2 ^ 8 && c < 2 ^ 8

/-- The core statements that a statement stands for (R79). -/
def Stmt.expand : Stmt → List Stmt
  | .tofsd w     => [.temp w]
  | .altd w      => [.co2 w]
  | .alte w v    => [.ldw w v]
  | .stg g h l c => [.stb (3 * g) h, .stb (3 * g + 1) l, .stb (3 * g + 2) c]
  | st           => [st]

/-- A register operand (R78). -/
def regOperand (w : Nat) : Option RegIdx :=
  if h : w < 3 then some ⟨w, h⟩ else none

/-- A numeric operand of a field `k` bits wide (R74, R78). -/
def numOperand (k v : Nat) : Option (BitVec k) :=
  if v < 2 ^ k then some (BitVec.ofNat k v) else none

/-- The command of a core statement; none where an operand does not fit, and for a pseudo-instruction. -/
def Stmt.instr : Stmt → Option Instr
  | .nop       => some .nop
  | .ldw w v   => (regOperand w).bind fun i => (numOperand 16 v).map fun x => .ldw i x
  | .stb a d   => (numOperand 4 a).bind fun x => (numOperand 8 d).map fun y => .stb x y
  | .ldb a     => (numOperand 4 a).map .ldb
  | .crc8 w    => (regOperand w).map .crc8
  | .pack w    => (regOperand w).map .pack
  | .unpack n  => (numOperand 2 n).map .unpack
  | .co2 w     => (regOperand w).map .co2
  | .temp w    => (regOperand w).map .temp
  | .rh w      => (regOperand w).map .rh
  | .tofse w v => (regOperand w).bind fun i => (numOperand 24 v).map fun x => .tofse i x
  | .prese w v => (regOperand w).bind fun i => (numOperand 24 v).map fun x => .prese i x
  | .frc w     => (regOperand w).map .frc
  | .ser       => some .ser
  | .drdy w    => (regOperand w).map .drdy
  | .tofsd _ | .altd _ | .alte _ _ | .stg _ _ _ _ => none

/-- The words of a list of core statements. -/
def encodeCore : List Stmt → Option (List Cmd)
  | []        => some []
  | st :: sts =>
    match st.instr, encodeCore sts with
    | some i, some cs => some (encode i :: cs)
    | _,      _       => none

/-- The words of a statement, or a refusal (R78, R79). -/
def assemble (st : Stmt) : Option (List Cmd) :=
  if st.wellFormed then encodeCore st.expand else none

/-! ### From text to statements (R78; the lexical details are log 9) -/

/-- An operand as written. -/
inductive Operand where
  | reg (n : Nat)
  | num (n : Nat)
deriving DecidableEq, Repr

def isBlankChar (c : Char) : Bool := c == ' ' || c == '\t'

def trimBlanks (l : List Char) : List Char :=
  ((l.dropWhile isBlankChar).reverse.dropWhile isBlankChar).reverse

/-- The value of a digit in the given base. -/
def digitValue (base : Nat) (c : Char) : Option Nat :=
  let k := c.toNat
  let v :=
    if 48 ≤ k ∧ k ≤ 57 then k - 48
    else if 65 ≤ k ∧ k ≤ 70 then k - 55
    else if 97 ≤ k ∧ k ≤ 102 then k - 87
    else base
  if v < base then some v else none

/-- The value of a list of digits, read after the digits whose value is `acc`. -/
def digitsValue (base : Nat) : Nat → List Char → Option Nat
  | acc, []      => some acc
  | acc, c :: cs => (digitValue base c).bind fun d => digitsValue base (base * acc + d) cs

/-- "in decimal or in hexadecimal with 0x" (R78). -/
def parseNumber : List Char → Option Nat
  | []                     => none
  | '0' :: 'x' :: c :: cs  => digitsValue 16 0 (c :: cs)
  | c :: cs                => digitsValue 10 0 (c :: cs)

/-- "A word register is written w0, w1 or w2" (R78): a `w` and one digit. -/
def parseOperand : List Char → Option Operand
  | ['w', c] => (digitValue 10 c).map .reg
  | l        => (parseNumber l).map .num

/-- The pieces of a list between the separators. -/
def splitAtChar (sep : Char) : List Char → List (List Char)
  | []      => [[]]
  | c :: cs =>
    if c = sep then [] :: splitAtChar sep cs
    else
      match splitAtChar sep cs with
      | []      => [[c]]
      | p :: ps => (c :: p) :: ps

/-- All the operands of a line, or none if one does not parse. -/
def parseOperands : List (List Char) → Option (List Operand)
  | []      => some []
  | p :: ps => (parseOperand (trimBlanks p)).bind fun o => (parseOperands ps).map fun os => o :: os

/-- The statement of a mnemonic with its operands in the order of R78. -/
def stmtOf (m : List Char) (ops : List Operand) : Option Stmt :=
  match ops with
  | [] =>
    if m = "NOP".toList then some .nop
    else if m = "SER".toList then some .ser
    else none
  | [.reg i] =>
    if m = "CRC8".toList then some (.crc8 i)
    else if m = "PACK".toList then some (.pack i)
    else if m = "CO2".toList then some (.co2 i)
    else if m = "TEMP".toList then some (.temp i)
    else if m = "RH".toList then some (.rh i)
    else if m = "FRC".toList then some (.frc i)
    else if m = "DRDY".toList then some (.drdy i)
    else if m = "TOFSD".toList then some (.tofsd i)
    else if m = "ALTD".toList then some (.altd i)
    else none
  | [.num n] =>
    if m = "LDB".toList then some (.ldb n)
    else if m = "UNPACK".toList then some (.unpack n)
    else none
  | [.reg i, .num v] =>
    if m = "LDW".toList then some (.ldw i v)
    else if m = "TOFSE".toList then some (.tofse i v)
    else if m = "PRESE".toList then some (.prese i v)
    else if m = "ALTE".toList then some (.alte i v)
    else none
  | [.num a, .num d] => if m = "STB".toList then some (.stb a d) else none
  | [.num g, .num h, .num l, .num c] => if m = "STG".toList then some (.stg g h l c) else none
  | _ => none

/-- The statements of one line: none if the line is wrong, no statement if it is blank or only a comment ("A semicolon
starts a comment", "One command per line", R78). -/
def parseLine (line : List Char) : Option (List Stmt) :=
  let body := trimBlanks (line.takeWhile (fun c => c != ';'))
  if body = [] then some []
  else
    let m    := body.takeWhile (fun c => !isBlankChar c)
    let rest := trimBlanks (body.dropWhile (fun c => !isBlankChar c))
    let ops  := if rest = [] then some [] else parseOperands (splitAtChar ',' rest)
    (ops.bind (stmtOf m)).map fun st => [st]

/-- The words of statements, one after another. -/
def assembleAll : List Stmt → Option (List Cmd)
  | []        => some []
  | st :: sts => (assemble st).bind fun cs => (assembleAll sts).map fun ds => cs ++ ds

/-- The words of one line. -/
def assembleLine (line : List Char) : Option (List Cmd) :=
  (parseLine line).bind assembleAll

/-- The words of a program, line after line. -/
def assembleText : List (List Char) → Option (List Cmd)
  | []      => some []
  | l :: ls => (assembleLine l).bind fun cs => (assembleText ls).map fun ds => cs ++ ds

end Sys2Proof.Machine
end

