-- ==== Sys2Proof/Machine/Port.lean ====
section
/-! DEFINITION. The clocked view of the block's ports (rules R21, R40, R170, R173, R175, R176): the pins sampled at a clock
edge, the command in progress, and `cmd_ready`. It runs the same `runCommand` as the step; the number of cycles a command
takes is the open parameter LATENCY (log 4). -/

namespace Sys2Proof.Machine

/-- The input pins at one clock edge: `rst`, `cmd_valid`, `cmd[31:0]` (R21). -/
structure Pins where
  rst      : Bool
  cmdValid : Bool
  cmd      : Cmd
deriving DecidableEq, Repr

/-- The block between two clock edges: its state, and the command in progress with the clock edges it still takes beyond
the next one. `state.inputs` plays no part here: the pins are the host. -/
structure ClockedBlock where
  state : State
  busy  : Option (Cmd × Nat)
deriving DecidableEq, Repr

/-- `cmd_ready`: 0 while a command is in progress (R21) and while `rst` is 1 (R170; log 13). -/
def ClockedBlock.cmdReady (b : ClockedBlock) (p : Pins) : Bool :=
  !p.rst && b.busy.isNone

/-- The output ports show the state between commands (R21). -/
def ClockedBlock.ports (b : ClockedBlock) : OutputPorts := b.state.ports

/-- The block as a reset leaves it, ready for its first command (R170). -/
def ClockedBlock.reset : ClockedBlock := { state := State.reset, busy := none }

/-- The last clock edge of a command: its whole effect lands at once (R21, R58). -/
def completeCommand (c : Cmd) (s : State) : Host.Outcome ClockedBlock Fault Refusal :=
  match runCommand c s with
  | .next s'   => .next { state := s', busy := none }
  | .fault r   => .fault r
  | .refused r => .refused r

/-- One clock edge. `rst` wins over everything and abandons a command in progress with no effect (R40); a command is
accepted when `cmd_valid` and `cmd_ready` are 1 and `rst` is 0, and completes LATENCY edges later (R21, R175). -/
def clockEdge (p : Pins) (b : ClockedBlock) : Host.Outcome ClockedBlock Fault Refusal :=
  if p.rst then
    .next { state := hostReset b.state, busy := none }
  else
    match b.busy with
    | none =>
      if p.cmdValid then .next { b with busy := some (p.cmd, Config.extraCycles p.cmd) } else .next b
    | some (c, 0)     => completeCommand c b.state
    | some (c, n + 1) => .next { b with busy := some (c, n) }

/-- The clock edges of a list of pin samples, first one first. -/
def clockEdges : List Pins → ClockedBlock → Host.Outcome ClockedBlock Fault Refusal
  | [],      b => .next b
  | p :: ps, b =>
    match clockEdge p b with
    | .next b'   => clockEdges ps b'
    | .fault r   => .fault r
    | .refused r => .refused r

end Sys2Proof.Machine
end

