-- ==== Sys2Proof/Safety.lean ====
section
/-! DEFINITION. What counts as a safe run, and the terms the statements use: the places of the state one by one, what each
command reads and writes (the table of rule R38), which command words fault (the table of 60_exceptions.md section 1), the
invariant of the block, and a run of command words (rule R10). Nothing of the machine uses this file. -/

namespace Sys2Proof.Machine

/-- "A model should treat any state with FAULT != 0 as gone wrong" (R158). -/
def State.safe (s : State) : Prop := s.fault = 0

/-! ### The places of the state -/

/-- Every place of the state that a command may write (10_state.md), one flag and one byte of the buffer at a time. -/
inductive Loc where
  | w (i : RegIdx)
  | ck (i : RegIdx)
  | calf
  | inex
  | acc
  | res
  | ser
  | dout
  | buf (a : Nat)
  | fault
  | fcause
  | fcmd
deriving DecidableEq, Repr

/-- What a place holds, as an unsigned number. -/
def State.at (s : State) : Loc → Nat
  | .w i    => (s.readW i).toNat
  | .ck i   => (s.ck i).toNat
  | .calf   => s.calf.toNat
  | .inex   => s.inex.toNat
  | .acc    => s.acc.toNat
  | .res    => s.res.toNat
  | .ser    => s.ser.toNat
  | .dout   => s.dout.toNat
  | .buf a  => (s.readByte a).toNat
  | .fault  => s.fault.toNat
  | .fcause => s.fcause.toNat
  | .fcmd   => s.fcmd.toNat

/-- Every place but those of `p` holds in `t` what it held in `s`, and the host's pending inputs are the same. -/
def SameBut (p : Loc → Prop) (s t : State) : Prop :=
  (∀ l, ¬ p l → t.at l = s.at l) ∧ t.inputs = s.inputs

/-- The fault registers (R34, R35, R36). -/
def Loc.isFaultRegister : Loc → Bool
  | .fault | .fcause | .fcmd => true
  | _ => false

/-- The column "writes" of the table of R38: what a command that does not fault may write. -/
def writesPlace : Instr → Loc → Bool
  | .nop,       _      => false
  | .ldw i _,   .w j   => i = j
  | .ldw i _,   .ck j  => i = j
  | .stb a _,   .buf b => a.toNat = b
  | .ldb _,     .dout  => true
  | .crc8 _,    .acc   => true
  | .pack i,    .buf b => 3 * i.val ≤ b && b < 3 * i.val + 3
  | .unpack n,  .w j   => j.val < n.toNat
  | .unpack n,  .ck j  => j.val < n.toNat
  | .co2 _,     .res   => true
  | .temp _,    .res   => true
  | .rh _,      .res   => true
  | .tofse i _, .w j   => i = j
  | .tofse i _, .ck j  => i = j
  | .prese i _, .w j   => i = j
  | .prese i _, .ck j  => i = j
  | .prese _ _, .inex  => true
  | .frc _,     .calf  => true
  | .frc _,     .res   => true
  | .ser,       .ser   => true
  | .drdy _,    .res   => true
  | _,          _      => false

/-- The column "reads" of the table of R38. -/
def readsPlace : Instr → Loc → Bool
  | .ldb a,    .buf b => a.toNat = b
  | .crc8 i,   .w j   => i = j
  | .pack i,   .w j   => i = j
  | .unpack n, .buf b => b < 3 * n.toNat
  | .co2 i,    .w j   => i = j
  | .temp i,   .w j   => i = j
  | .rh i,     .w j   => i = j
  | .frc i,    .w j   => i = j
  | .ser,      .w _   => true
  | .drdy i,   .w j   => i = j
  | _,         _      => false

/-! ### Which command words fault -/

/-- The table of 60_exceptions.md section 1, from the bits of the word (R150, R151, R152, R156). -/
def faultOfWord (c : Cmd) : Option FaultKind :=
  let op := c.toNat / 2 ^ 26
  let addr := c.toNat / 2 ^ 8 % 2 ^ 4
  let imm24 := c.toNat % 2 ^ 24
  if !wellFormedWord c then some .illegalCommand
  else if (op = 0x02 ∨ op = 0x03) ∧ 9 ≤ addr then some .bufferBounds
  else if (op = 0x23 ∧ 11468713 ≤ imm24) ∨ (op = 0x24 ∧ 6553600 ≤ imm24) then some .rangeError
  else none

/-- The bit of FAULT that a fault sets, its cause code less one (R153). -/
def FaultKind.bit : FaultKind → Nat
  | .illegalCommand => 0
  | .bufferBounds   => 1
  | .rangeError     => 2

/-- What fault entry leaves (R153), field by field. -/
def TookFault (k : FaultKind) (c : Cmd) (s t : State) : Prop :=
  (∀ b, b < 3 → t.fault.getLsbD b = (s.fault.getLsbD b || b == k.bit))
  ∧ (s.fcause = 0 → t.fcause.toNat = k.bit + 1 ∧ t.fcmd = c)
  ∧ (s.fcause ≠ 0 → t.fcause = s.fcause ∧ t.fcmd = s.fcmd)
  ∧ SameBut (fun l => l.isFaultRegister) s t

/-! ### The invariant -/

/-- FLAGS bits 3, 6 and 7 are reserved and zero (R25). -/
def State.reservedFlagsZero (s : State) : Prop :=
  s.flags.getLsbD 3 = false ∧ s.flags.getLsbD 6 = false ∧ s.flags.getLsbD 7 = false

/-- The fault registers agree with one another (R35, R36), and FCMD is a word that raises the recorded fault (R150 to R152). -/
def State.faultRecord (s : State) : Prop :=
  (s.fcause = 0 ↔ s.fault = 0)
  ∧ (s.fcause = 0 → s.fcmd = 0)
  ∧ (∀ k : FaultKind, s.fcause.toNat = k.bit + 1 →
      s.fault.getLsbD k.bit = true ∧ faultOfWord s.fcmd = some k)

/-- The invariant of the block: BUF in canonical form within its nine addresses, the reserved flags zero, the fault
record sound. -/
def State.inv (s : State) : Prop :=
  s.buf.wf ∧ s.reservedFlagsZero ∧ s.faultRecord

/-- The values of R40, place by place. -/
def State.hasResetValues (s : State) : Prop :=
  s.ports = { w0 := 0x0000#16, w1 := 0x0000#16, w2 := 0x0000#16, flags := 0x00#8, acc := 0xFF#8, res := 0x00000000#32,
              ser := 0x000000000000#48, dout := 0x00#8, fault := 0b000#3, fcause := 0#2, fcmd := 0x00000000#32 }
  ∧ ∀ a, a < 9 → s.readByte a = 0x00#8

/-! ### Runs of command words -/

/-- The steps of c1, then c2, and so on (R10). -/
def runCommands : List Cmd → State → Host.Outcome State Fault Refusal
  | [],      s => .next s
  | c :: cs, s =>
    match runCommand c s with
    | .next s'   => runCommands cs s'
    | .fault r   => .fault r
    | .refused r => .refused r

end Sys2Proof.Machine
end

