-- ==== Sys2Proof/Certificates/Slice0/Obligations.lean ====
section
/-! DEFINITION. The statements for the provers. Each docstring names the rule of spec/ it formalises. `SameBut p s t` says that
every place of the state outside `p`, one flag and one byte of the buffer at a time, holds in `t` what it held in `s`;
`TookFault k c s t` says what fault entry leaves, field by field (both in Safety.lean). -/

namespace Sys2Proof.Doc

/-- The document's shift step on numbers: "if high bit set, shift left 1 and XOR with polynomial 0x31, else shift left 1;
keep only low 8 bits" (R100). -/
def crcBit (a : Nat) : Nat := if 128 ≤ a then (2 * a % 256) ^^^ 0x31 else 2 * a

/-- "XOR into accumulator, then for 8 iterations" (R101). -/
def crcByte (a b : Nat) : Nat :=
  crcBit (crcBit (crcBit (crcBit (crcBit (crcBit (crcBit (crcBit (a ^^^ b))))))))

/-- "initialize accumulator to 0xFF; for each of the two big-endian bytes of word" (R102). -/
def crc8 (w : Nat) : Nat := crcByte (crcByte 0xFF (w / 256)) (w % 256)

/-- The table T of 95_test_vectors.md V14, row after row. -/
def crcTable : List Nat :=
  [0x00, 0x31, 0x62, 0x53, 0xC4, 0xF5, 0xA6, 0x97, 0xB9, 0x88, 0xDB, 0xEA, 0x7D, 0x4C, 0x1F, 0x2E] ++
  [0x43, 0x72, 0x21, 0x10, 0x87, 0xB6, 0xE5, 0xD4, 0xFA, 0xCB, 0x98, 0xA9, 0x3E, 0x0F, 0x5C, 0x6D] ++
  [0x86, 0xB7, 0xE4, 0xD5, 0x42, 0x73, 0x20, 0x11, 0x3F, 0x0E, 0x5D, 0x6C, 0xFB, 0xCA, 0x99, 0xA8] ++
  [0xC5, 0xF4, 0xA7, 0x96, 0x01, 0x30, 0x63, 0x52, 0x7C, 0x4D, 0x1E, 0x2F, 0xB8, 0x89, 0xDA, 0xEB] ++
  [0x3D, 0x0C, 0x5F, 0x6E, 0xF9, 0xC8, 0x9B, 0xAA, 0x84, 0xB5, 0xE6, 0xD7, 0x40, 0x71, 0x22, 0x13] ++
  [0x7E, 0x4F, 0x1C, 0x2D, 0xBA, 0x8B, 0xD8, 0xE9, 0xC7, 0xF6, 0xA5, 0x94, 0x03, 0x32, 0x61, 0x50] ++
  [0xBB, 0x8A, 0xD9, 0xE8, 0x7F, 0x4E, 0x1D, 0x2C, 0x02, 0x33, 0x60, 0x51, 0xC6, 0xF7, 0xA4, 0x95] ++
  [0xF8, 0xC9, 0x9A, 0xAB, 0x3C, 0x0D, 0x5E, 0x6F, 0x41, 0x70, 0x23, 0x12, 0x85, 0xB4, 0xE7, 0xD6] ++
  [0x7A, 0x4B, 0x18, 0x29, 0xBE, 0x8F, 0xDC, 0xED, 0xC3, 0xF2, 0xA1, 0x90, 0x07, 0x36, 0x65, 0x54] ++
  [0x39, 0x08, 0x5B, 0x6A, 0xFD, 0xCC, 0x9F, 0xAE, 0x80, 0xB1, 0xE2, 0xD3, 0x44, 0x75, 0x26, 0x17] ++
  [0xFC, 0xCD, 0x9E, 0xAF, 0x38, 0x09, 0x5A, 0x6B, 0x45, 0x74, 0x27, 0x16, 0x81, 0xB0, 0xE3, 0xD2] ++
  [0xBF, 0x8E, 0xDD, 0xEC, 0x7B, 0x4A, 0x19, 0x28, 0x06, 0x37, 0x64, 0x55, 0xC2, 0xF3, 0xA0, 0x91] ++
  [0x47, 0x76, 0x25, 0x14, 0x83, 0xB2, 0xE1, 0xD0, 0xFE, 0xCF, 0x9C, 0xAD, 0x3A, 0x0B, 0x58, 0x69] ++
  [0x04, 0x35, 0x66, 0x57, 0xC0, 0xF1, 0xA2, 0x93, 0xBD, 0x8C, 0xDF, 0xEE, 0x79, 0x48, 0x1B, 0x2A] ++
  [0xC1, 0xF0, 0xA3, 0x92, 0x05, 0x34, 0x67, 0x56, 0x78, 0x49, 0x1A, 0x2B, 0xBC, 0x8D, 0xDE, 0xEF] ++
  [0x82, 0xB3, 0xE0, 0xD1, 0x46, 0x77, 0x24, 0x15, 0x3B, 0x0A, 0x59, 0x68, 0xFF, 0xCE, 0x9D, 0xAC]

/-- `0x8C000000 | i << 24 | x` and its like: a word from the opcode's base, a register index and the low bits. -/
def wordWithReg (base : Sys2Proof.Cmd) (i : Sys2Proof.RegIdx) (low : Nat) : Sys2Proof.Cmd :=
  base ||| (BitVec.ofNat 32 i.val <<< 24) ||| BitVec.ofNat 32 low

/-- `0x08000000 | a << 8 | d` and its like: a word from the opcode's base, a buffer address and a byte. -/
def wordWithAddr (base : Sys2Proof.Cmd) (a : BitVec 4) (low : Nat) : Sys2Proof.Cmd :=
  base ||| (BitVec.ofNat 32 a.toNat <<< 8) ||| BitVec.ofNat 32 low

end Sys2Proof.Doc

section
open Sys2Proof Sys2Proof.Machine

/-! ### Encoding -/

/-- 30_encoding.md section 7: each worked encoding decodes to the command it is listed for. -/
def Obligations.WorkedEncodingsDecodeToTheirCommands : Prop :=
  decode 0x00000000#32 = .command .nop
  ∧ decode 0x0500BEEF#32 = .command (.ldw 1 0xBEEF#16)
  ∧ decode 0x080005A2#32 = .command (.stb 5#4 0xA2#8)
  ∧ decode 0x0C000200#32 = .command (.ldb 2#4)
  ∧ decode 0x21000000#32 = .command (.crc8 1)
  ∧ decode 0x40000000#32 = .command (.pack 0)
  ∧ decode 0x42000000#32 = .command (.pack 2)
  ∧ decode 0x47000000#32 = .command (.unpack 3#2)
  ∧ decode 0x44000000#32 = .command (.unpack 0#2)
  ∧ decode 0x80000000#32 = .command (.co2 0)
  ∧ decode 0x85000000#32 = .command (.temp 1)
  ∧ decode 0x8A000000#32 = .command (.rh 2)
  ∧ decode 0x8C040000#32 = .command (.tofse 0 0x040000#24)
  ∧ decode 0x90018BCD#32 = .command (.prese 0 101325#24)
  ∧ decode 0x94000000#32 = .command (.frc 0)
  ∧ decode 0x98000000#32 = .command .ser
  ∧ decode 0x9C000000#32 = .command (.drdy 0)

/-- Decoding an encoded command gives it back, with every operand at every value (R72, R73, R74). -/
def Obligations.DecodeReadsBackEveryEncodedCommand : Prop :=
  ∀ i : Instr, decode (encode i) = .command i

/-- A word that decodes to a command is that command's one encoding: no bit of a legal word is ignored (R71, R75). -/
def Obligations.EachCommandHasOneEncoding : Prop :=
  ∀ (c : Cmd) (i : Instr), decode c = .command i → encode i = c

/-- R72: the decoder agrees with the opcode table's match and mask; a word that selects no row is illegal; no word selects
two rows. -/
def Obligations.DecoderAgreesWithOpcodeTable : Prop :=
  (∀ (c : Cmd) (i : Instr), decode c = .command i →
      ∃ r ∈ opcodeTable, r.selects c = true ∧ r.mnemonic = i.mnemonic)
  ∧ (∀ c : Cmd, (∃ why, decode c = .illegal why) ↔ ∀ r ∈ opcodeTable, r.selects c = false)
  ∧ (∀ c : Cmd, ∀ r ∈ opcodeTable, ∀ r' ∈ opcodeTable, r.selects c = true → r'.selects c = true → r = r')

/-- R75: the illegal words are exactly those of a reserved opcode, of IDX = 3 in a format that names a register, or with a
nonzero bit in a must-be-zero field; each raises IllegalCommand and does nothing else. -/
def Obligations.IllegalWordsRaiseIllegalCommandOnly : Prop :=
  ∀ c : Cmd,
    ((∃ why, decode c = .illegal why)
      ↔ (reservedOpcodeWord c || noRegisterWord c || nonzeroFieldWord c) = true)
    ∧ ∀ s : State, (reservedOpcodeWord c || noRegisterWord c || nonzeroFieldWord c) = true →
        ∃ t, runCommand c s = .next t ∧ TookFault .illegalCommand c s t

/-! ### The step -/

/-- R73: a step on a legal command word is the decoded command's rule, on the state without that input. That the word is the
first of the pending inputs is the model's choice (log 2). -/
def Obligations.StepRunsTheDecodedCommand : Prop :=
  ∀ (s : State) (c : Cmd) (rest : List HostInput) (i : Instr),
    s.inputs = .command c :: rest → decode c = .command i → step s = exec i { s with inputs := rest }

/-- R150: a step on a word the decoder calls illegal takes the IllegalCommand fault, code 1, FAULT bit 0.
That the word is the first of the pending inputs is the model's choice (log 2). -/
def Obligations.StepOnIllegalWordTakesIllegalCommand : Prop :=
  ∀ (s : State) (c : Cmd) (rest : List HostInput) (why : Illegal),
    s.inputs = .command c :: rest → decode c = .illegal why →
      ∃ t, step s = .next t ∧ TookFault .illegalCommand c { s with inputs := rest } t

/-- R40: when `rst` is 1 every register takes its reset value, whatever is offered or in progress; so in the state after
reset, on the host's reset input, and at a clock edge of the clocked view. R40 does not speak of the host's later inputs: that
they stay pending behind the host's reset (`t.inputs = rest`) is the model's deduction of log 6. -/
def Obligations.ResetGivesEveryRegisterItsResetValue : Prop :=
  State.reset.hasResetValues
  ∧ (∀ (s : State) (rest : List HostInput), s.inputs = .reset :: rest →
      ∃ t, step s = .next t ∧ t.hasResetValues ∧ t.inputs = rest)
  ∧ (∀ (p : Pins) (b : ClockedBlock), p.rst = true →
      ∃ b', clockEdge p b = .next b' ∧ b'.busy = none ∧ b'.state.hasResetValues)

/-- The model's choice of log 1 (the spec: "unchanged state between commands", R176): with no input nothing changes. -/
def Obligations.StepWithoutInputLeavesTheState : Prop :=
  ∀ s : State, s.inputs = [] → step s = .next s

/-- R10, R176: the step is total; it stops in no state and takes exactly the first pending input. The rules speak of the step
of a command word. The pending inputs are the model's own field (log 2); that there is a step without input, which leaves the
state, is the model's choice (log 1); that a reset keeps the later inputs is its deduction (log 6). -/
def Obligations.StepCompletesAndTakesOneInput : Prop :=
  ∀ s : State, ∃ t, step s = .next t ∧ t.inputs = s.inputs.tail

/-- R10, R20, R58: running the machine over pending command words is their steps one after another, in order, and the
inputs behind them are left. The pending inputs are the model's own field (log 2). -/
def Obligations.RunPerformsTheCommandsInOrder : Prop :=
  ∀ (cs : List Cmd) (s : State) (rest : List HostInput),
    ∃ t : State,
      Host.Core.run Sys2Proof.core cs.length { s with inputs := cs.map .command ++ rest } = .next t
      ∧ runCommands cs { s with inputs := rest } = .next t
      ∧ t.inputs = rest

/-! ### Faults -/

/-- R153: fault entry sets FAULT bit k-1, records code and word if FCAUSE is 0, and changes nothing else. -/
def Obligations.FaultEntryWritesOnlyTheFaultRegisters : Prop :=
  ∀ (k : FaultKind) (c : Cmd) (s : State), TookFault k c s (raiseFault k c s)

/-- The table of 60_exceptions.md section 1 (R150, R151, R152, R156): from the bits of the word alone, a command word takes
exactly the fault of the table, or leaves the fault registers as they are. -/
def Obligations.EveryWordTakesExactlyTheFaultOfTheTable : Prop :=
  ∀ (c : Cmd) (s : State),
    (∀ k, faultOfWord c = some k → ∃ t, runCommand c s = .next t ∧ TookFault k c s t)
    ∧ (faultOfWord c = none →
        ∃ t, runCommand c s = .next t ∧ t.fault = s.fault ∧ t.fcause = s.fcause ∧ t.fcmd = s.fcmd)

/-- R151: STB and LDB with an address of 9 to 15 take BufferBounds, code 2, FAULT bit 1, and record the command word; no
other command changes that bit. -/
def Obligations.BufferBoundsIsRaisedByByteAccessesOnly : Prop :=
  (∀ (a : BitVec 4) (d : BitVec 8) (s : State), 9 ≤ a.toNat →
      ∃ t, exec (.stb a d) s = .next t
        ∧ TookFault .bufferBounds (Doc.wordWithAddr 0x08000000#32 a d.toNat) s t)
  ∧ (∀ (a : BitVec 4) (s : State), 9 ≤ a.toNat →
      ∃ t, exec (.ldb a) s = .next t ∧ TookFault .bufferBounds (Doc.wordWithAddr 0x0C000000#32 a 0) s t)
  ∧ (∀ (i : Instr) (s t : State), exec i s = .next t → t.fault.getLsbD 1 ≠ s.fault.getLsbD 1 →
      ∃ a : BitVec 4, 9 ≤ a.toNat ∧ ((∃ d, i = .stb a d) ∨ i = .ldb a))

/-- R152: TOFSE with IMM24 >= 11468713 and PRESE with IMM24 >= 6553600 take RangeError, code 3, FAULT bit 2, and record the
command word; no other command changes that bit. -/
def Obligations.RangeErrorIsRaisedByEncodersOnly : Prop :=
  (∀ (i : RegIdx) (x : BitVec 24) (s : State), 11468713 ≤ x.toNat →
      ∃ t, exec (.tofse i x) s = .next t
        ∧ TookFault .rangeError (Doc.wordWithReg 0x8C000000#32 i x.toNat) s t)
  ∧ (∀ (i : RegIdx) (p : BitVec 24) (s : State), 6553600 ≤ p.toNat →
      ∃ t, exec (.prese i p) s = .next t
        ∧ TookFault .rangeError (Doc.wordWithReg 0x90000000#32 i p.toNat) s t)
  ∧ (∀ (i : Instr) (s t : State), exec i s = .next t → t.fault.getLsbD 2 ≠ s.fault.getLsbD 2 →
      (∃ r x, i = .tofse r x ∧ 11468713 ≤ x.toNat) ∨ (∃ r p, i = .prese r p ∧ 6553600 ≤ p.toNat))

/-- R34, R158: a FAULT bit that is set stays set until a reset, and the record of the first fault stays as it is. -/
def Obligations.FaultRegistersAreStickyUntilReset : Prop :=
  ∀ s t : State, step s = .next t → s.inputs.head? ≠ some .reset →
    (∀ b, s.fault.getLsbD b = true → t.fault.getLsbD b = true)
    ∧ (s.fcause ≠ 0 → t.fcause = s.fcause ∧ t.fcmd = s.fcmd)

/-- R158: over any sequence of command words from a state with no fault, FAULT lists every kind of fault that occurred, and
FCAUSE and FCMD describe the first one. -/
def Obligations.FaultRegistersDescribeTheWholeRun : Prop :=
  ∀ (cs : List Cmd) (s t : State), s.fault = 0 → s.fcause = 0 → runCommands cs s = .next t →
    (∀ k : FaultKind, t.fault.getLsbD k.bit = true ↔ ∃ c ∈ cs, faultOfWord c = some k)
    ∧ (∀ c, cs.find? (fun c => (faultOfWord c).isSome) = some c →
        t.fcmd = c ∧ ∃ k, faultOfWord c = some k ∧ t.fcause.toNat = k.bit + 1)
    ∧ (cs.find? (fun c => (faultOfWord c).isSome) = none → t.safe ∧ t.fcause = 0 ∧ t.fcmd = s.fcmd)

/-! ### The invariant -/

/-- Every step keeps the invariant: BUF canonical within its nine addresses (R50), the reserved flags zero (R25), and the
fault record sound: FCAUSE = 0 exactly when FAULT = 0, the recorded bit set (R35), FCMD 0 without a fault (R36) and
otherwise a word that raises the recorded fault (R150 to R152). -/
def Obligations.EveryStepKeepsTheInvariant : Prop :=
  ∀ s t : State, s.inv → step s = .next t → t.inv

/-- The state after reset meets the invariant (R40). -/
def Obligations.ResetStateMeetsTheInvariant : Prop :=
  State.reset.inv

/-! ### The CRC engine -/

/-- R100 to R103: CRC8 leaves in ACC the checksum of the document's algorithm, computed on numbers, and changes nothing
else. -/
def Obligations.CrcCommandLeavesTheDocumentsChecksum : Prop :=
  ∀ (i : RegIdx) (s : State),
    exec (.crc8 i) s = .next { s with acc := BitVec.ofNat 8 (Doc.crc8 (s.readW i).toNat) }

/-- R104 (d) and vector V14: the checksum is two look-ups in the table of the spec. -/
def Obligations.ChecksumIsTheSpecsTableLookup : Prop :=
  ∀ w : Word,
    (crc8 w).toNat =
      Doc.crcTable.getD (Doc.crcTable.getD (0xFF ^^^ w.toNat / 256) 0 ^^^ w.toNat % 256) 0

/-- R104 (f) and R113: for a fixed high byte the checksum is a bijection in the low byte, and the other way round. -/
def Obligations.ChecksumIsBijectiveInEachByte : Prop :=
  (∀ hi : Byte, Function.Bijective (fun lo : Byte => crc8 (hi ++ lo)))
  ∧ (∀ lo : Byte, Function.Bijective (fun hi : Byte => crc8 (hi ++ lo)))

/-- R104 (e) and the corner case of R111: running the engine over all three bytes of a group leaves zero exactly when the
third byte is the checksum of the first two. -/
def Obligations.EngineOverWholeGroupIsZeroIffItsCrcIsRight : Prop :=
  ∀ (w : Word) (c : Byte), crcByte (crc8 w) c = 0#8 ↔ c = crc8 w

/-! ### The word codec -/

/-- R110: PACK writes word register i to group i as high byte, low byte, CRC byte, and changes nothing else. -/
def Obligations.PackWritesTheGroupOfItsWord : Prop :=
  ∀ (i : RegIdx) (s : State),
    groupAddr i = 3 * i.val
    ∧ ∃ t, exec (.pack i) s = .next t
      ∧ (t.readByte (groupAddr i)).toNat = (s.readW i).toNat / 256
      ∧ (t.readByte (groupAddr i + 1)).toNat = (s.readW i).toNat % 256
      ∧ t.readByte (groupAddr i + 2) = crc8 (s.readW i)
      ∧ (∀ a, a < groupAddr i ∨ groupAddr i + 3 ≤ a → t.readByte a = s.readByte a)
      ∧ SameBut (fun l => ∃ a, l = .buf a) s t

/-- R111: UNPACK n writes, for each i < n, the word of group i, high byte first, whether or not its check passes, and CK[i];
the other words and flags, and every other place, are unchanged. -/
def Obligations.UnpackReadsTheFirstGroups : Prop :=
  ∀ (n : BitVec 2) (s : State),
    ∃ t, exec (.unpack n) s = .next t
      ∧ (∀ i : RegIdx, i.val < n.toNat →
          (t.readW i).toNat = 256 * (s.readByte (3 * i.val)).toNat + (s.readByte (3 * i.val + 1)).toNat
          ∧ (t.ck i = true ↔ crc8 (t.readW i) ≠ s.readByte (3 * i.val + 2)))
      ∧ (∀ i : RegIdx, n.toNat ≤ i.val → t.readW i = s.readW i ∧ t.ck i = s.ck i)
      ∧ SameBut (fun l => ∃ i : RegIdx, i.val < n.toNat ∧ (l = .w i ∨ l = .ck i)) s t

/-- R112: packing a word and unpacking its group gives the word back with no checksum mismatch. -/
def Obligations.PackThenUnpackReturnsTheWord : Prop :=
  ∀ (i : RegIdx) (n : BitVec 2) (s : State), i.val < n.toNat →
    ∃ t u, exec (.pack i) s = .next t ∧ exec (.unpack n) t = .next u
      ∧ u.readW i = s.readW i ∧ u.ck i = false

/-- R113, which the spec derives from R100 to R102 and R111: if one byte of a correct group is stored over
with a different value, UNPACK sets the group's flag. -/
def Obligations.UnpackDetectsOneChangedByte : Prop :=
  ∀ (i : RegIdx) (n : BitVec 2) (j : Nat) (d : Byte) (s : State),
    i.val < n.toNat → j < 3 →
    crc8 (s.readByte (3 * i.val) ++ s.readByte (3 * i.val + 1)) = s.readByte (3 * i.val + 2) →
    d ≠ s.readByte (3 * i.val + j) →
      ∃ t u, exec (.stb (BitVec.ofNat 4 (3 * i.val + j)) d) s = .next t ∧ exec (.unpack n) t = .next u
        ∧ u.ck i = true

/-! ### The unit converter -/

/-- R120: CO2 delivers the word as it is, with no clamp, and changes nothing but RES. -/
def Obligations.Co2DeliversTheWordAsItIs : Prop :=
  ∀ (i : RegIdx) (s : State),
    ∃ v : BitVec 32, exec (.co2 i) s = .next { s with res := v } ∧ v.toInt = (s.readW i).toNat

/-- R122: TEMP leaves in RES the temperature in signed Q16, exactly; its sign and its range; nothing else changes. -/
def Obligations.TempIsExactInQ16 : Prop :=
  ∀ (i : RegIdx) (s : State),
    ∃ v : BitVec 32, exec (.temp i) s = .next { s with res := v }
      ∧ v.toInt = 175 * ((s.readW i).toNat : Int) - 2949120
      ∧ (v.toInt : ℚ) / 65536 = -45 + 175 * ((s.readW i).toNat : ℚ) / 65536
      ∧ (v.toInt < 0 ↔ (s.readW i).toNat ≤ 16852)
      ∧ v.toInt ≠ 0
      ∧ -2949120 ≤ v.toInt ∧ v.toInt ≤ 8519505

/-- R124: RH leaves in RES the relative humidity in Q16, exactly, never negative and below 100 percent. -/
def Obligations.HumidityIsExactInQ16 : Prop :=
  ∀ (i : RegIdx) (s : State),
    ∃ v : BitVec 32, exec (.rh i) s = .next { s with res := v }
      ∧ v.toInt = 100 * ((s.readW i).toNat : Int)
      ∧ (v.toInt : ℚ) / 65536 = 100 * ((s.readW i).toNat : ℚ) / 65536
      ∧ 0 ≤ v.toInt ∧ v.toInt ≤ 6553500
      ∧ (v.toInt : ℚ) / 65536 < 100

/-- R126: TOFSE writes `(x + 87) div 175`, the integer nearest to x / 175, and clears CK[i]; from x = 11468713 on it raises
RangeError and changes nothing else. -/
def Obligations.OffsetEncoderRoundsToNearest : Prop :=
  (∀ (i : RegIdx) (x : BitVec 24) (s : State), x.toNat < 11468713 →
      ∃ t, exec (.tofse i x) s = .next t
        ∧ (t.readW i).toNat = (x.toNat + 87) / 175
        ∧ ((t.readW i).toNat : ℤ) = round (((x.toNat : ℚ) / 65536) * 65536 / 175)
        ∧ t.ck i = false
        ∧ SameBut (fun l => l = .w i ∨ l = .ck i) s t)
  ∧ (∀ (i : RegIdx) (x : BitVec 24) (s : State), 11468713 ≤ x.toNat →
      65535 < (x.toNat + 87) / 175
      ∧ ∃ t, exec (.tofse i x) s = .next t
        ∧ TookFault .rangeError (Doc.wordWithReg 0x8C000000#32 i x.toNat) s t)

/-- R128: decoding an encoded offset gives the offset less 45 degrees, to within the rounding of the encoder; a word of 0
decodes to -45 degrees. -/
def Obligations.OffsetEncodeThenDecodeKeepsTheBias : Prop :=
  (∀ (i : RegIdx) (x : BitVec 24) (s : State), x.toNat < 11468713 →
      ∃ t u, exec (.tofse i x) s = .next t ∧ exec (.temp i) t = .next u
        ∧ x.toNat - 87 ≤ u.res.toInt + 2949120 ∧ u.res.toInt + 2949120 ≤ x.toNat + 87)
  ∧ (∀ (i : RegIdx) (s : State), s.readW i = 0 →
      ∃ u, exec (.temp i) s = .next u ∧ (u.res.toInt : ℚ) / 65536 = -45)

/-- R130: PRESE writes the pressure in whole hectopascals, rounded toward zero, clears CK[i] and says in INEX whether a
remainder was discarded; from 6553600 on it raises RangeError and changes nothing else. -/
def Obligations.PressureEncoderTruncatesAndSaysSo : Prop :=
  (∀ (i : RegIdx) (p : BitVec 24) (s : State), p.toNat < 6553600 →
      ∃ t, exec (.prese i p) s = .next t
        ∧ ((t.readW i).toNat : ℤ) = ⌊(p.toNat : ℚ) / 100⌋
        ∧ t.ck i = false
        ∧ (t.inex = true ↔ ¬ 100 ∣ p.toNat)
        ∧ SameBut (fun l => l = .w i ∨ l = .ck i ∨ l = .inex) s t)
  ∧ (∀ (i : RegIdx) (p : BitVec 24) (s : State), 6553600 ≤ p.toNat →
      65535 < p.toNat / 100
      ∧ ∃ t, exec (.prese i p) s = .next t
        ∧ TookFault .rangeError (Doc.wordWithReg 0x90000000#32 i p.toNat) s t)

/-- R132: FRC on 0xFFFF sets CALF and leaves RES; on any other word it clears CALF and leaves the signed correction; the two
ways the document states the failure test agree (90_conflicts.md C4). -/
def Obligations.RecalibrationResultOrFailure : Prop :=
  ∀ (i : RegIdx) (s : State),
    (s.readW i = 0xFFFF#16 →
      ∃ t, exec (.frc i) s = .next t ∧ t.calf = true ∧ SameBut (fun l => l = .calf) s t)
    ∧ (s.readW i ≠ 0xFFFF#16 →
      ∃ t, exec (.frc i) s = .next t ∧ t.calf = false
        ∧ t.res.toInt = ((s.readW i).toNat : Int) - 0x8000
        ∧ -32768 ≤ t.res.toInt ∧ t.res.toInt ≤ 32766
        ∧ SameBut (fun l => l = .calf ∨ l = .res) s t)
    ∧ (s.readW i = 0xFFFF#16 ↔ ((s.readW i).toNat : Int) - 0x8000 = 0x7FFF)

/-- R134: SER concatenates W0, W1, W2, W0 most significant, and changes nothing else. -/
def Obligations.SerialNumberConcatenatesTheWords : Prop :=
  ∀ s : State,
    ∃ v : BitVec 48, exec .ser s = .next { s with ser := v }
      ∧ v.toNat = (s.readW 0).toNat * 2 ^ 32 + (s.readW 1).toNat * 2 ^ 16 + (s.readW 2).toNat

/-- R136: DRDY leaves 1 in RES when one of the low eleven bits of the word is set, else 0, and changes nothing else. -/
def Obligations.DataReadyTestsTheLowElevenBits : Prop :=
  ∀ (i : RegIdx) (s : State),
    ∃ v : BitVec 32, exec (.drdy i) s = .next { s with res := v }
      ∧ ((∃ k, k < 11 ∧ (s.readW i).getLsbD k = true) → v = 1)
      ∧ ((∀ k, k < 11 → (s.readW i).getLsbD k = false) → v = 0)

/-- R25, R135: no command reads a flag. Started with any other flags, a command does the same to every place that is no flag,
and leaves each flag either as it does from the first state or, in both, as it found it. -/
def Obligations.NoCommandReadsAFlag : Prop :=
  ∀ (i : Instr) (s t : State) (f : BitVec 8), exec i s = .next t →
    ∃ t', exec i { s with flags := f } = .next t'
      ∧ { t' with flags := t.flags } = t
      ∧ ∀ b, t'.flags.getLsbD b = t.flags.getLsbD b
          ∨ (t'.flags.getLsbD b = f.getLsbD b ∧ t.flags.getLsbD b = s.flags.getLsbD b)

/-! ### Host access -/

/-- R140: NOP is the all-zero word and changes no state. -/
def Obligations.NopIsTheZeroWordAndChangesNothing : Prop :=
  (∀ s : State, exec .nop s = .next s)
  ∧ encode .nop = 0x00000000#32 ∧ decode 0x00000000#32 = .command .nop

/-- R141: LDW loads the word register, clears its flag, and changes nothing else. -/
def Obligations.LoadWordWritesItsRegisterAndClearsItsFlag : Prop :=
  ∀ (i : RegIdx) (v : BitVec 16) (s : State),
    ∃ t, exec (.ldw i v) s = .next t ∧ t.readW i = v ∧ t.ck i = false
      ∧ SameBut (fun l => l = .w i ∨ l = .ck i) s t

/-- R142: STB stores one byte at an address of 0 to 8 and touches no other byte and no register; at 9 to 15 it raises
BufferBounds and changes nothing else. -/
def Obligations.StoreByteWritesItsByteOnly : Prop :=
  (∀ (a : BitVec 4) (d : BitVec 8) (s : State), a.toNat ≤ 8 →
      ∃ t, exec (.stb a d) s = .next t ∧ byteAddr a = some a.toNat ∧ t.readByte a.toNat = d
        ∧ (∀ b, b ≠ a.toNat → t.readByte b = s.readByte b)
        ∧ SameBut (fun l => l = .buf a.toNat) s t)
  ∧ (∀ (a : BitVec 4) (d : BitVec 8) (s : State), 9 ≤ a.toNat →
      ∃ t, exec (.stb a d) s = .next t
        ∧ TookFault .bufferBounds (Doc.wordWithAddr 0x08000000#32 a d.toNat) s t)

/-- R143: LDB reads the byte at an address of 0 to 8 into DOUT and changes nothing else; at 9 to 15 it raises BufferBounds
and changes nothing else. -/
def Obligations.LoadByteReadsItsByte : Prop :=
  (∀ (a : BitVec 4) (s : State), a.toNat ≤ 8 →
      exec (.ldb a) s = .next { s with dout := s.readByte a.toNat })
  ∧ (∀ (a : BitVec 4) (s : State), 9 ≤ a.toNat →
      ∃ t, exec (.ldb a) s = .next t ∧ TookFault .bufferBounds (Doc.wordWithAddr 0x0C000000#32 a 0) s t)

/-- R8, R52: a MemWrite reads back with MemRead of the same width, and no byte outside it changes. -/
def Obligations.MemReadReturnsWhatMemWriteWrote : Prop :=
  ∀ (m : Memory) (a n : Nat) (v : BitVec (8 * n)),
    (m.memWrite a n v).memRead a n = v
    ∧ ∀ b, b < a ∨ a + n ≤ b → (m.memWrite a n v).read b = m.read b

/-! ### What commands write and read -/

/-- R38, the column "writes": a command writes no place but those the table lists for it, and one that faults none but the
fault registers; a command that does not fault leaves the fault registers. -/
def Obligations.CommandsWriteOnlyWhatTheTableLists : Prop :=
  ∀ (i : Instr) (s t : State), exec i s = .next t →
    (∀ k, faultOfWord (encode i) = some k → SameBut (fun l => l.isFaultRegister) s t)
    ∧ (faultOfWord (encode i) = none → SameBut (fun l => writesPlace i l) s t)

/-- R38, the column "reads": two states that agree on what the table lists as read get, at every place but the fault
registers, the same value from the command, unless the command leaves that place as it was in both. -/
def Obligations.CommandsReadOnlyWhatTheTableLists : Prop :=
  ∀ (i : Instr) (s s' t t' : State),
    (∀ l, readsPlace i l = true → s.at l = s'.at l) →
    exec i s = .next t → exec i s' = .next t' →
      ∀ l, l.isFaultRegister = false →
        t.at l = t'.at l ∨ (t.at l = s.at l ∧ t'.at l = s'.at l)

/-- R26: after a command that writes W[r], CK[r] is 1 exactly when the command was an UNPACK and the CRC byte of group r is
not the checksum of the unpacked word; after any other command CK[r] and W[r] are as before. -/
def Obligations.ChecksumFlagFollowsTheLastWriterOfItsWord : Prop :=
  ∀ (i : Instr) (s t : State) (r : RegIdx), exec i s = .next t → faultOfWord (encode i) = none →
    (writesPlace i (.w r) = true →
      (t.ck r = true ↔ (∃ n, i = .unpack n) ∧ crc8 (t.readW r) ≠ s.readByte (3 * r.val + 2)))
    ∧ (writesPlace i (.w r) = false → t.ck r = s.ck r ∧ t.readW r = s.readW r)

/-- R27: every FRC writes CALF, 1 when the word it reads is 0xFFFF and 0 otherwise; no other command does. -/
def Obligations.CalibrationFlagIsWrittenByFrcOnly : Prop :=
  (∀ (r : RegIdx) (s : State), ∃ t, exec (.frc r) s = .next t ∧ (t.calf = true ↔ s.readW r = 0xFFFF#16))
  ∧ (∀ (i : Instr) (s t : State), (∀ r, i ≠ .frc r) → exec i s = .next t → t.calf = s.calf)

/-- R28: every PRESE that does not fault writes INEX, 1 when the pressure is not a multiple of 100 and 0 otherwise; no other
command does. -/
def Obligations.InexactFlagIsWrittenByPreseOnly : Prop :=
  (∀ (r : RegIdx) (p : BitVec 24) (s : State), p.toNat < 6553600 →
      ∃ t, exec (.prese r p) s = .next t ∧ (t.inex = true ↔ p.toNat % 100 ≠ 0))
  ∧ (∀ (r : RegIdx) (p : BitVec 24) (s : State), 6553600 ≤ p.toNat →
      ∃ t, exec (.prese r p) s = .next t ∧ t.inex = s.inex)
  ∧ (∀ (i : Instr) (s t : State), (∀ r p, i ≠ .prese r p) → exec i s = .next t → t.inex = s.inex)

/-- R57: repeating a command at once gives the same state again, the faulting forms included. -/
def Obligations.RepeatingACommandChangesNothingMore : Prop :=
  ∀ (i : Instr) (s t : State), s.buf.wf → exec i s = .next t → exec i t = .next t

/-! ### The clocked view -/

/-- R21, R175 (LATENCY at least 1, log 4): a command accepted at a clock edge has, LATENCY edges later and whatever the
command port shows meanwhile, exactly the effect of its atomic step, and the block is ready again. -/
def Obligations.ClockedCommandEqualsItsAtomicStep : Prop :=
  ∀ (b : ClockedBlock) (p : Pins) (ps : List Pins) (t : State),
    b.busy = none → p.rst = false → p.cmdValid = true → (∀ q ∈ ps, q.rst = false) →
    ps.length = 1 + Config.extraCycles p.cmd → runCommand p.cmd b.state = .next t →
      clockEdges (p :: ps) b = .next { state := t, busy := none }

/-- R21: from acceptance until completion `cmd_ready` is 0 and the output ports show the state from before the command.
Up to which clock edge that is rests on log 4's reading of LATENCY; that `cmd_ready` is 0 in a cycle with `rst` = 1 is log
13's deduction. -/
def Obligations.PortsShowTheOldStateUntilCompletion : Prop :=
  ∀ (b : ClockedBlock) (p : Pins) (ps : List Pins),
    b.busy = none → p.rst = false → p.cmdValid = true → (∀ q ∈ ps, q.rst = false) →
    ps.length ≤ Config.extraCycles p.cmd →
      ∃ b', clockEdges (p :: ps) b = .next b' ∧ b'.ports = b.ports ∧ b'.state = b.state
        ∧ ∀ q, b'.cmdReady q = false

/-- R40: a reset at any edge after acceptance abandons the command with no effect: the block is as if it had only been reset,
and ready. Which edges lie before completion is log 4's reading of LATENCY. -/
def Obligations.ResetAbandonsTheCommandInProgress : Prop :=
  ∀ (b : ClockedBlock) (p : Pins) (ps : List Pins) (r : Pins),
    b.busy = none → p.rst = false → p.cmdValid = true → (∀ q ∈ ps, q.rst = false) →
    ps.length ≤ Config.extraCycles p.cmd → r.rst = true →
      ∃ b', clockEdges (p :: ps ++ [r]) b = .next b' ∧ clockEdge r b = .next b'
        ∧ b'.state.hasResetValues ∧ b'.busy = none

/-- R21, R25: the output ports show the registers, and the `flags` port shows CK0 to CK2, CALF and INEX in their places and
0 in the reserved ones, in every state. -/
def Obligations.OutputPortsShowTheRegisters : Prop :=
  ∀ s : State,
    s.ports.w0 = s.readW 0 ∧ s.ports.w1 = s.readW 1 ∧ s.ports.w2 = s.readW 2
    ∧ (∀ i : RegIdx, s.ports.flags.getLsbD i.val = s.ck i)
    ∧ s.ports.flags.getLsbD 4 = s.calf ∧ s.ports.flags.getLsbD 5 = s.inex
    ∧ s.ports.flags.getLsbD 3 = false ∧ s.ports.flags.getLsbD 6 = false ∧ s.ports.flags.getLsbD 7 = false
    ∧ s.ports.acc = s.acc ∧ s.ports.res = s.res ∧ s.ports.ser = s.ser ∧ s.ports.dout = s.dout
    ∧ s.ports.fault = s.fault ∧ s.ports.fcause = s.fcause ∧ s.ports.fcmd = s.fcmd

/-! ### The assembler -/

/-- R78 and the table of worked encodings: each line of text assembles to its word. -/
def Obligations.WorkedLinesAssembleToTheirWords : Prop :=
  assembleText
    ["NOP".toList, "LDW w1, 0xBEEF".toList, "STB 5, 0xA2".toList, "LDB 2".toList, "CRC8 w1".toList, "PACK w0".toList,
     "PACK w2".toList, "UNPACK 3".toList, "UNPACK 0".toList, "CO2 w0".toList, "TEMP w1".toList, "RH w2".toList,
     "TOFSE w0, 0x040000".toList, "PRESE w0, 101325".toList, "FRC w0".toList, "SER".toList, "DRDY w0".toList]
  = some
    [0x00000000#32, 0x0500BEEF#32, 0x080005A2#32, 0x0C000200#32, 0x21000000#32, 0x40000000#32,
     0x42000000#32, 0x47000000#32, 0x44000000#32, 0x80000000#32, 0x85000000#32, 0x8A000000#32,
     0x8C040000#32, 0x90018BCD#32, 0x94000000#32, 0x98000000#32, 0x9C000000#32]

/-- R78: the assembler refuses exactly the statements with an operand that does not fit its field or a register other than w0
to w2, and gives only legal words. R79 names the groups 0, 1 and 2 of STG; that any other group is refused is the model's
choice (log 9), since `STB 9, d` would fit its field. -/
def Obligations.AssemblerRefusesExactlyWhatDoesNotFit : Prop :=
  ∀ st : Stmt,
    (assemble st = none ↔ st.wellFormed = false)
    ∧ ∀ ws, assemble st = some ws → ∀ c ∈ ws, ∃ i, decode c = .command i

/-- R79: the pseudo-instructions stand for their expansions, and STG loads one received group: run from any state, its
words leave the three bytes of group g and nothing else changed. -/
def Obligations.PseudoInstructionsStandForTheirExpansions : Prop :=
  (∀ w, assemble (.tofsd w) = assemble (.temp w))
  ∧ (∀ w, assemble (.altd w) = assemble (.co2 w))
  ∧ (∀ w v, assemble (.alte w v) = assemble (.ldw w v))
  ∧ (∀ g h l c, g < 3 → h < 256 → l < 256 → c < 256 →
      assemble (.stg g h l c) = assembleAll [.stb (3 * g) h, .stb (3 * g + 1) l, .stb (3 * g + 2) c])
  ∧ (∀ (g : RegIdx) (h l c : Byte) (s : State),
      ∃ ws t, assemble (.stg g.val h.toNat l.toNat c.toNat) = some ws ∧ runCommands ws s = .next t
        ∧ t.readByte (3 * g.val) = h ∧ t.readByte (3 * g.val + 1) = l ∧ t.readByte (3 * g.val + 2) = c
        ∧ SameBut (fun x => ∃ a, x = .buf a ∧ 3 * g.val ≤ a ∧ a < 3 * g.val + 3) s t)

end
end

