-- ==== Sys2Proof/Laws/Encoding.lean ====
section
/-! SUPPORT. The fields of a command word as numbers: what each field of a word built from its fields is, and that a word is
built from its fields. -/

namespace Sys2Proof

theorem toNat_append_add {m n : Nat} (x : BitVec m) (y : BitVec n) :
    (x ++ y).toNat = x.toNat * 2 ^ n + y.toNat := by
  rw [BitVec.toNat_append, ← Nat.shiftLeft_add_eq_or_of_lt y.isLt, Nat.shiftLeft_eq]

theorem toNat_wordOf (op : BitVec 6) (idx : BitVec 2) (imm : BitVec 24) :
    (wordOf op idx imm).toNat = op.toNat * 2 ^ 26 + idx.toNat * 2 ^ 24 + imm.toNat := by
  have h : (wordOf op idx imm).toNat = (op ++ idx ++ imm : BitVec (6 + 2 + 24)).toNat := rfl
  rw [h, toNat_append_add, toNat_append_add]
  omega

/-- A field of a word is a quotient and a remainder of its number. -/
theorem toNat_field (c : Cmd) (lo w : Nat) : (c.extractLsb' lo w).toNat = c.toNat / 2 ^ lo % 2 ^ w := by
  rw [BitVec.extractLsb'_toNat, Nat.shiftRight_eq_div_pow]

theorem toNat_opField (c : Cmd) : (opField c).toNat = c.toNat / 2 ^ 26 := by
  rw [opField, toNat_field]; omega

theorem toNat_idxField (c : Cmd) : (idxField c).toNat = c.toNat / 2 ^ 24 % 4 := toNat_field c 24 2

theorem toNat_imm24Field (c : Cmd) : (imm24Field c).toNat = c.toNat % 2 ^ 24 := by
  rw [imm24Field, toNat_field]; omega

@[simp] theorem opField_wordOf (op : BitVec 6) (idx : BitVec 2) (imm : BitVec 24) :
    opField (wordOf op idx imm) = op :=
  BitVec.eq_of_toNat_eq (by rw [toNat_opField, toNat_wordOf]; omega)

@[simp] theorem idxField_wordOf (op : BitVec 6) (idx : BitVec 2) (imm : BitVec 24) :
    idxField (wordOf op idx imm) = idx :=
  BitVec.eq_of_toNat_eq (by rw [toNat_idxField, toNat_wordOf]; omega)

@[simp] theorem imm24Field_wordOf (op : BitVec 6) (idx : BitVec 2) (imm : BitVec 24) :
    imm24Field (wordOf op idx imm) = imm :=
  BitVec.eq_of_toNat_eq (by rw [toNat_imm24Field, toNat_wordOf]; omega)

/-- A word is built from its primary fields (R70). -/
theorem wordOf_fields (c : Cmd) : wordOf (opField c) (idxField c) (imm24Field c) = c :=
  BitVec.eq_of_toNat_eq (by rw [toNat_wordOf, toNat_opField, toNat_idxField, toNat_imm24Field]; omega)

/-- A mask acts on each primary field of a word by itself (R70). -/
theorem wordOf_and (op mo : BitVec 6) (idx mi : BitVec 2) (imm mm : BitVec 24) :
    wordOf op idx imm &&& wordOf mo mi mm = wordOf (op &&& mo) (idx &&& mi) (imm &&& mm) := by
  have h1 := BitVec.and_append (x₁ := op ++ idx) (x₂ := mo ++ mi) (y₁ := imm) (y₂ := mm)
  rw [BitVec.and_append (x₁ := op)] at h1
  exact h1

@[simp] theorem regOfIdx_idxOfReg (i : RegIdx) : regOfIdx (idxOfReg i) = some i := by
  revert i; decide

theorem regOfIdx_eq_some {k : BitVec 2} {i : RegIdx} (h : regOfIdx k = some i) : k = idxOfReg i := by
  revert k i; decide

theorem zeroChecked_command {w : Nat} {m : BitVec w} {i j : Instr} :
    zeroChecked m i = .command j ↔ m = 0 ∧ i = j := by
  unfold zeroChecked; split <;> simp_all

theorem regChecked_command {w : Nat} {c : Cmd} {m : BitVec w} {mk : RegIdx → Instr} {j : Instr} :
    regChecked c m mk = .command j ↔ ∃ i, regOfIdx (idxField c) = some i ∧ m = 0 ∧ mk i = j := by
  unfold regChecked
  split <;> simp_all [zeroChecked_command]

theorem zeroChecked_illegal {w : Nat} {m : BitVec w} {i : Instr} :
    (∃ why, zeroChecked m i = .illegal why) ↔ m ≠ 0 := by
  unfold zeroChecked; split <;> simp_all

theorem regChecked_illegal {w : Nat} {c : Cmd} {m : BitVec w} {mk : RegIdx → Instr} :
    (∃ why, regChecked c m mk = .illegal why) ↔ idxField c = 3#2 ∨ m ≠ 0 := by
  unfold regChecked
  have h3 : ∀ k : BitVec 2, regOfIdx k = none ↔ k = 3#2 := by decide
  have hs : ∀ (k : BitVec 2) (i : RegIdx), regOfIdx k = some i → k ≠ 3#2 := by decide
  split
  · rename_i h; simp [(h3 _).mp h]
  · rename_i i h; simp [zeroChecked_illegal, hs _ _ h]

end Sys2Proof
end

