-- ==== Sys2Proof/Laws/Memory.lean ====
section
/-! SUPPORT. The laws of the buffer: a byte read after a write, reads elsewhere, the canonical form, and that equal readings
of canonical buffers are equal data. -/

namespace Sys2Proof.Machine

/-! ### One byte -/

@[simp] theorem Memory.read_nil (a : Nat) : Memory.read [] a = blank := rfl

theorem Memory.read_cons (k : Nat) (v : Byte) (m : Memory) (a : Nat) :
    Memory.read ((k, v) :: m) a = if k = a then v else m.read a := rfl

theorem Memory.erase_cons (k : Nat) (v : Byte) (m : Memory) (a : Nat) :
    Memory.erase ((k, v) :: m) a = if k = a then m.erase a else (k, v) :: m.erase a := by
  by_cases hk : k = a <;> simp [Memory.erase, hk]

theorem Memory.ne_of_mem_erase {m : Memory} {a : Nat} {c : Host.Cell} (h : c ∈ m.erase a) : c.1 ≠ a := by
  simpa using (List.mem_filter.mp h).2

theorem Memory.mem_of_mem_erase {m : Memory} {a : Nat} {c : Host.Cell} (h : c ∈ m.erase a) : c ∈ m :=
  (List.mem_filter.mp h).1

theorem Memory.read_erase (m : Memory) (a b : Nat) :
    (m.erase a).read b = if b = a then blank else m.read b := by
  induction m with
  | nil => simp [Memory.erase]
  | cons c m ih =>
    obtain ⟨k, v⟩ := c
    rw [Memory.erase_cons]
    split
    · rw [ih, Memory.read_cons]; grind
    · rw [Memory.read_cons, Memory.read_cons, ih]; grind

theorem Memory.read_putCell (m : Memory) (a b : Nat) (v : Byte) (h : ∀ c ∈ m, c.1 ≠ a) :
    (Memory.putCell a v m).read b = if b = a then v else m.read b := by
  induction m with
  | nil => simp only [Memory.putCell, Memory.read_cons, Memory.read_nil]; grind
  | cons c m ih =>
    obtain ⟨k, w⟩ := c
    have hk : k ≠ a := h (k, w) (by simp)
    have ih := ih (fun c hc => h c (by simp [hc]))
    simp only [Memory.putCell]
    split
    · rw [Memory.read_cons]; grind
    · rw [Memory.read_cons, ih, Memory.read_cons]; grind

/-- A byte reads as the last byte written to its address, and as before where nothing was written (R57, R58). -/
theorem Memory.read_write (m : Memory) (a b : Nat) (v : Byte) :
    (m.write a v).read b = if b = a then v else m.read b := by
  unfold Memory.write
  split
  · rename_i hv; rw [Memory.read_erase, hv]
  · rw [Memory.read_putCell _ _ _ _ (fun c hc => Memory.ne_of_mem_erase hc), Memory.read_erase]; grind

@[simp] theorem Memory.read_write_same (m : Memory) (a : Nat) (v : Byte) : (m.write a v).read a = v := by
  simp [Memory.read_write]

theorem Memory.read_write_other (m : Memory) {a b : Nat} (v : Byte) (h : b ≠ a) :
    (m.write a v).read b = m.read b := by
  simp [Memory.read_write, h]

/-! ### The canonical form -/

theorem Memory.wf_nil : Memory.wf [] := by simp [Memory.wf]

theorem Memory.mem_putCell (m : Memory) (a : Nat) (v : Byte) (c : Host.Cell) :
    c ∈ Memory.putCell a v m ↔ c = (a, v) ∨ c ∈ m := by
  induction m with
  | nil => simp [Memory.putCell]
  | cons d m ih =>
    obtain ⟨k, w⟩ := d
    simp only [Memory.putCell]
    split
    · simp
    · simp only [List.mem_cons, ih]; tauto

theorem Memory.pairwise_putCell (m : Memory) (a : Nat) (v : Byte)
    (hm : m.Pairwise (fun x y => x.1 < y.1)) (h : ∀ c ∈ m, c.1 ≠ a) :
    (Memory.putCell a v m).Pairwise (fun x y => x.1 < y.1) := by
  induction m with
  | nil => simp [Memory.putCell]
  | cons d m ih =>
    obtain ⟨k, w⟩ := d
    rw [List.pairwise_cons] at hm
    have hk : k ≠ a := h (k, w) (by simp)
    simp only [Memory.putCell]
    split
    · rename_i hlt
      refine List.pairwise_cons.mpr ⟨fun c hc => ?_, List.pairwise_cons.mpr hm⟩
      rcases List.mem_cons.mp hc with rfl | hc
      · exact hlt
      · exact Nat.lt_trans hlt (hm.1 c hc)
    · refine List.pairwise_cons.mpr ⟨fun c hc => ?_, ih hm.2 (fun c hc => h c (by simp [hc]))⟩
      rcases (Memory.mem_putCell m a v c).mp hc with rfl | hc
      · show k < a; omega
      · exact hm.1 c hc

/-- A write to an address that exists keeps the canonical form. -/
theorem Memory.wf_write {m : Memory} (hm : m.wf) {a : Nat} (ha : a < Config.bufBytes) (v : Byte) :
    (m.write a v).wf := by
  have he : (m.erase a).wf :=
    ⟨hm.1.filter _, fun c hc => hm.2 c (Memory.mem_of_mem_erase hc)⟩
  unfold Memory.write
  split
  · exact he
  · rename_i hv
    refine ⟨Memory.pairwise_putCell _ _ _ he.1 (fun c hc => Memory.ne_of_mem_erase hc), fun c hc => ?_⟩
    rcases (Memory.mem_putCell _ _ _ _).mp hc with rfl | hc
    · exact ⟨ha, hv⟩
    · exact he.2 c hc

theorem Memory.read_eq_of_mem {m : Memory} (hm : m.Pairwise (fun x y => x.1 < y.1)) {c : Host.Cell} (hc : c ∈ m) :
    m.read c.1 = c.2 := by
  induction m with
  | nil => simp at hc
  | cons d m ih =>
    obtain ⟨k, w⟩ := d
    rw [List.pairwise_cons] at hm
    rw [Memory.read_cons]
    rcases List.mem_cons.mp hc with rfl | hc
    · simp
    · have := hm.1 c hc
      rw [if_neg (by simp at this; omega), ih hm.2 hc]

theorem Memory.mem_of_read_ne {m : Memory} {a : Nat} (h : m.read a ≠ blank) : (a, m.read a) ∈ m := by
  induction m with
  | nil => simp at h
  | cons d m ih =>
    obtain ⟨k, w⟩ := d
    rw [Memory.read_cons] at h ⊢
    split at h
    · rename_i hk; simp [hk]
    · rename_i hk; simp [hk, ih h]

theorem Memory.mem_iff_read {m : Memory} (hm : m.wf) (c : Host.Cell) :
    c ∈ m ↔ m.read c.1 = c.2 ∧ c.2 ≠ blank := by
  constructor
  · exact fun hc => ⟨Memory.read_eq_of_mem hm.1 hc, (hm.2 c hc).2⟩
  · rintro ⟨h, hb⟩
    have := Memory.mem_of_read_ne (m := m) (a := c.1) (h ▸ hb)
    rwa [h] at this

/-- Canonical buffers that read the same are the same data. -/
theorem Memory.ext_of_wf {m m' : Memory} (hm : m.wf) (hm' : m'.wf) (h : ∀ a, m.read a = m'.read a) : m = m' := by
  have hnd : ∀ {x : Memory}, x.wf → x.Nodup := fun hx => hx.1.imp (fun hlt he => by simp [he] at hlt)
  refine List.Perm.eq_of_pairwise (le := fun x y => x.1 < y.1) ?_ hm.1 hm'.1 ?_
  · intro a b _ _ h1 h2; omega
  · exact (List.perm_ext_iff_of_nodup (hnd hm) (hnd hm')).mpr
      (fun c => by rw [Memory.mem_iff_read hm, Memory.mem_iff_read hm', h])

/-! ### MemRead and MemWrite (R8) -/

@[simp] theorem Memory.memRead_zero (m : Memory) (a : Nat) : m.memRead a 0 = 0#0 := rfl

theorem Memory.memRead_succ (m : Memory) (a n : Nat) : m.memRead a (n + 1) = m.memRead a n ++ m.read (a + n) := rfl

@[simp] theorem Memory.memWrite_zero (m : Memory) (a : Nat) (v : BitVec (8 * 0)) : m.memWrite a 0 v = m := rfl

theorem Memory.memWrite_succ (m : Memory) (a n : Nat) (v : BitVec (8 * (n + 1))) :
    m.memWrite a (n + 1) v = (m.memWrite a n (v.extractLsb' 8 (8 * n))).write (a + n) (v.setWidth 8) := rfl

/-- MemWrite changes only the bytes it addresses. -/
theorem Memory.read_memWrite_other (m : Memory) (a n : Nat) (v : BitVec (8 * n)) (b : Nat) (h : b < a ∨ a + n ≤ b) :
    (m.memWrite a n v).read b = m.read b := by
  induction n with
  | zero => rfl
  | succ n ih =>
    rw [Memory.memWrite_succ, Memory.read_write_other _ _ (by omega), ih _ (by omega)]

/-- The k-th byte of a MemWrite is the k-th byte of the value, the most significant first. -/
theorem Memory.read_memWrite (m : Memory) (a n : Nat) (v : BitVec (8 * n)) (k : Nat) (h : k < n) :
    (m.memWrite a n v).read (a + k) = v.extractLsb' (8 * (n - 1 - k)) 8 := by
  induction n with
  | zero => omega
  | succ n ih =>
    rw [Memory.memWrite_succ]
    by_cases hk : k = n
    · subst hk
      rw [Memory.read_write_same]
      ext i hi
      simp
    · rw [Memory.read_write_other _ _ (by omega), ih _ (by omega)]
      ext i hi
      have e : 8 * (n + 1 - 1 - k) = 8 * (n - 1 - k) + 8 := by omega
      simp only [BitVec.getElem_extractLsb', BitVec.getLsbD_extractLsb', e]
      have : 8 * (n - 1 - k) + i < 8 * n := by omega
      simp [this]
      congr 1; omega

/-- MemWrite within the buffer keeps the canonical form. -/
theorem Memory.wf_memWrite {m : Memory} (hm : m.wf) (a n : Nat) (v : BitVec (8 * n)) (h : a + n ≤ Config.bufBytes) :
    (m.memWrite a n v).wf := by
  induction n with
  | zero => exact hm
  | succ n ih => exact Memory.wf_write (ih _ (by omega)) (by omega) _

theorem Memory.memRead_one (m : Memory) (a : Nat) : m.memRead a 1 = m.read a := by
  refine BitVec.eq_of_getLsbD_eq (fun i hi => ?_)
  rw [Memory.memRead_succ, BitVec.getLsbD_append, if_pos hi, Nat.add_zero]

theorem Memory.memRead_two (m : Memory) (a : Nat) : m.memRead a 2 = m.read a ++ m.read (a + 1) := by
  rw [Memory.memRead_succ, Memory.memRead_one]

theorem Memory.memWrite_one (m : Memory) (a : Nat) (v : BitVec (8 * 1)) : m.memWrite a 1 v = m.write a v := by
  rw [Memory.memWrite_succ]
  simp [Memory.memWrite_zero]

end Sys2Proof.Machine
end

