-- ==== Sys2Proof/Laws/State.lean ====
section
/-! SUPPORT. One lemma per field and named update of State, each true by rfl, so that no proof unfolds an update. -/

namespace Sys2Proof.Machine

/-! ### writeW -/

@[simp] theorem writeW_w (s : State) (i : RegIdx) (v : Word) : (s.writeW i v).w = s.w.set i.val v i.isLt := rfl
@[simp] theorem writeW_flags (s : State) (i : RegIdx) (v : Word) : (s.writeW i v).flags = s.flags := rfl
@[simp] theorem writeW_acc (s : State) (i : RegIdx) (v : Word) : (s.writeW i v).acc = s.acc := rfl
@[simp] theorem writeW_res (s : State) (i : RegIdx) (v : Word) : (s.writeW i v).res = s.res := rfl
@[simp] theorem writeW_ser (s : State) (i : RegIdx) (v : Word) : (s.writeW i v).ser = s.ser := rfl
@[simp] theorem writeW_dout (s : State) (i : RegIdx) (v : Word) : (s.writeW i v).dout = s.dout := rfl
@[simp] theorem writeW_buf (s : State) (i : RegIdx) (v : Word) : (s.writeW i v).buf = s.buf := rfl
@[simp] theorem writeW_fault (s : State) (i : RegIdx) (v : Word) : (s.writeW i v).fault = s.fault := rfl
@[simp] theorem writeW_fcause (s : State) (i : RegIdx) (v : Word) : (s.writeW i v).fcause = s.fcause := rfl
@[simp] theorem writeW_fcmd (s : State) (i : RegIdx) (v : Word) : (s.writeW i v).fcmd = s.fcmd := rfl
@[simp] theorem writeW_inputs (s : State) (i : RegIdx) (v : Word) : (s.writeW i v).inputs = s.inputs := rfl

/-! ### setCk -/

@[simp] theorem setCk_w (s : State) (i : RegIdx) (b : Bool) : (s.setCk i b).w = s.w := rfl
@[simp] theorem setCk_flags (s : State) (i : RegIdx) (b : Bool) : (s.setCk i b).flags = putBit i.val b s.flags := rfl
@[simp] theorem setCk_acc (s : State) (i : RegIdx) (b : Bool) : (s.setCk i b).acc = s.acc := rfl
@[simp] theorem setCk_res (s : State) (i : RegIdx) (b : Bool) : (s.setCk i b).res = s.res := rfl
@[simp] theorem setCk_ser (s : State) (i : RegIdx) (b : Bool) : (s.setCk i b).ser = s.ser := rfl
@[simp] theorem setCk_dout (s : State) (i : RegIdx) (b : Bool) : (s.setCk i b).dout = s.dout := rfl
@[simp] theorem setCk_buf (s : State) (i : RegIdx) (b : Bool) : (s.setCk i b).buf = s.buf := rfl
@[simp] theorem setCk_fault (s : State) (i : RegIdx) (b : Bool) : (s.setCk i b).fault = s.fault := rfl
@[simp] theorem setCk_fcause (s : State) (i : RegIdx) (b : Bool) : (s.setCk i b).fcause = s.fcause := rfl
@[simp] theorem setCk_fcmd (s : State) (i : RegIdx) (b : Bool) : (s.setCk i b).fcmd = s.fcmd := rfl
@[simp] theorem setCk_inputs (s : State) (i : RegIdx) (b : Bool) : (s.setCk i b).inputs = s.inputs := rfl

/-! ### setCalf -/

@[simp] theorem setCalf_w (s : State) (b : Bool) : (s.setCalf b).w = s.w := rfl
@[simp] theorem setCalf_flags (s : State) (b : Bool) : (s.setCalf b).flags = putBit 4 b s.flags := rfl
@[simp] theorem setCalf_acc (s : State) (b : Bool) : (s.setCalf b).acc = s.acc := rfl
@[simp] theorem setCalf_res (s : State) (b : Bool) : (s.setCalf b).res = s.res := rfl
@[simp] theorem setCalf_ser (s : State) (b : Bool) : (s.setCalf b).ser = s.ser := rfl
@[simp] theorem setCalf_dout (s : State) (b : Bool) : (s.setCalf b).dout = s.dout := rfl
@[simp] theorem setCalf_buf (s : State) (b : Bool) : (s.setCalf b).buf = s.buf := rfl
@[simp] theorem setCalf_fault (s : State) (b : Bool) : (s.setCalf b).fault = s.fault := rfl
@[simp] theorem setCalf_fcause (s : State) (b : Bool) : (s.setCalf b).fcause = s.fcause := rfl
@[simp] theorem setCalf_fcmd (s : State) (b : Bool) : (s.setCalf b).fcmd = s.fcmd := rfl
@[simp] theorem setCalf_inputs (s : State) (b : Bool) : (s.setCalf b).inputs = s.inputs := rfl

/-! ### setInex -/

@[simp] theorem setInex_w (s : State) (b : Bool) : (s.setInex b).w = s.w := rfl
@[simp] theorem setInex_flags (s : State) (b : Bool) : (s.setInex b).flags = putBit 5 b s.flags := rfl
@[simp] theorem setInex_acc (s : State) (b : Bool) : (s.setInex b).acc = s.acc := rfl
@[simp] theorem setInex_res (s : State) (b : Bool) : (s.setInex b).res = s.res := rfl
@[simp] theorem setInex_ser (s : State) (b : Bool) : (s.setInex b).ser = s.ser := rfl
@[simp] theorem setInex_dout (s : State) (b : Bool) : (s.setInex b).dout = s.dout := rfl
@[simp] theorem setInex_buf (s : State) (b : Bool) : (s.setInex b).buf = s.buf := rfl
@[simp] theorem setInex_fault (s : State) (b : Bool) : (s.setInex b).fault = s.fault := rfl
@[simp] theorem setInex_fcause (s : State) (b : Bool) : (s.setInex b).fcause = s.fcause := rfl
@[simp] theorem setInex_fcmd (s : State) (b : Bool) : (s.setInex b).fcmd = s.fcmd := rfl
@[simp] theorem setInex_inputs (s : State) (b : Bool) : (s.setInex b).inputs = s.inputs := rfl

/-! ### loadW -/

@[simp] theorem loadW_w (s : State) (i : RegIdx) (v : Word) : (s.loadW i v).w = s.w.set i.val v i.isLt := rfl
@[simp] theorem loadW_flags (s : State) (i : RegIdx) (v : Word) : (s.loadW i v).flags = putBit i.val false s.flags := rfl
@[simp] theorem loadW_acc (s : State) (i : RegIdx) (v : Word) : (s.loadW i v).acc = s.acc := rfl
@[simp] theorem loadW_res (s : State) (i : RegIdx) (v : Word) : (s.loadW i v).res = s.res := rfl
@[simp] theorem loadW_ser (s : State) (i : RegIdx) (v : Word) : (s.loadW i v).ser = s.ser := rfl
@[simp] theorem loadW_dout (s : State) (i : RegIdx) (v : Word) : (s.loadW i v).dout = s.dout := rfl
@[simp] theorem loadW_buf (s : State) (i : RegIdx) (v : Word) : (s.loadW i v).buf = s.buf := rfl
@[simp] theorem loadW_fault (s : State) (i : RegIdx) (v : Word) : (s.loadW i v).fault = s.fault := rfl
@[simp] theorem loadW_fcause (s : State) (i : RegIdx) (v : Word) : (s.loadW i v).fcause = s.fcause := rfl
@[simp] theorem loadW_fcmd (s : State) (i : RegIdx) (v : Word) : (s.loadW i v).fcmd = s.fcmd := rfl
@[simp] theorem loadW_inputs (s : State) (i : RegIdx) (v : Word) : (s.loadW i v).inputs = s.inputs := rfl

/-! ### raiseFault -/

@[simp] theorem raiseFault_w (s : State) (k : FaultKind) (c : Cmd) : (raiseFault k c s).w = s.w := rfl
@[simp] theorem raiseFault_flags (s : State) (k : FaultKind) (c : Cmd) : (raiseFault k c s).flags = s.flags := rfl
@[simp] theorem raiseFault_acc (s : State) (k : FaultKind) (c : Cmd) : (raiseFault k c s).acc = s.acc := rfl
@[simp] theorem raiseFault_res (s : State) (k : FaultKind) (c : Cmd) : (raiseFault k c s).res = s.res := rfl
@[simp] theorem raiseFault_ser (s : State) (k : FaultKind) (c : Cmd) : (raiseFault k c s).ser = s.ser := rfl
@[simp] theorem raiseFault_dout (s : State) (k : FaultKind) (c : Cmd) : (raiseFault k c s).dout = s.dout := rfl
@[simp] theorem raiseFault_buf (s : State) (k : FaultKind) (c : Cmd) : (raiseFault k c s).buf = s.buf := rfl
@[simp] theorem raiseFault_fault (s : State) (k : FaultKind) (c : Cmd) : (raiseFault k c s).fault = k.mark s.fault := rfl
@[simp] theorem raiseFault_fcause (s : State) (k : FaultKind) (c : Cmd) : (raiseFault k c s).fcause = if s.fcause = 0#2 then k.code else s.fcause := rfl
@[simp] theorem raiseFault_fcmd (s : State) (k : FaultKind) (c : Cmd) : (raiseFault k c s).fcmd = if s.fcause = 0#2 then c else s.fcmd := rfl
@[simp] theorem raiseFault_inputs (s : State) (k : FaultKind) (c : Cmd) : (raiseFault k c s).inputs = s.inputs := rfl

/-! ### offerCommand -/

@[simp] theorem offerCommand_w (s : State) (c : Cmd) : (offerCommand c s).w = s.w := rfl
@[simp] theorem offerCommand_flags (s : State) (c : Cmd) : (offerCommand c s).flags = s.flags := rfl
@[simp] theorem offerCommand_acc (s : State) (c : Cmd) : (offerCommand c s).acc = s.acc := rfl
@[simp] theorem offerCommand_res (s : State) (c : Cmd) : (offerCommand c s).res = s.res := rfl
@[simp] theorem offerCommand_ser (s : State) (c : Cmd) : (offerCommand c s).ser = s.ser := rfl
@[simp] theorem offerCommand_dout (s : State) (c : Cmd) : (offerCommand c s).dout = s.dout := rfl
@[simp] theorem offerCommand_buf (s : State) (c : Cmd) : (offerCommand c s).buf = s.buf := rfl
@[simp] theorem offerCommand_fault (s : State) (c : Cmd) : (offerCommand c s).fault = s.fault := rfl
@[simp] theorem offerCommand_fcause (s : State) (c : Cmd) : (offerCommand c s).fcause = s.fcause := rfl
@[simp] theorem offerCommand_fcmd (s : State) (c : Cmd) : (offerCommand c s).fcmd = s.fcmd := rfl
@[simp] theorem offerCommand_inputs (s : State) (c : Cmd) : (offerCommand c s).inputs = .command c :: s.inputs := rfl

/-! ### hostReset -/

@[simp] theorem hostReset_w (s : State) : (hostReset s).w = Vector.replicate 3 0x0000#16 := rfl
@[simp] theorem hostReset_flags (s : State) : (hostReset s).flags = 0x00#8 := rfl
@[simp] theorem hostReset_acc (s : State) : (hostReset s).acc = 0xFF#8 := rfl
@[simp] theorem hostReset_res (s : State) : (hostReset s).res = 0#32 := rfl
@[simp] theorem hostReset_ser (s : State) : (hostReset s).ser = 0#48 := rfl
@[simp] theorem hostReset_dout (s : State) : (hostReset s).dout = 0x00#8 := rfl
@[simp] theorem hostReset_buf (s : State) : (hostReset s).buf = [] := rfl
@[simp] theorem hostReset_fault (s : State) : (hostReset s).fault = 0#3 := rfl
@[simp] theorem hostReset_fcause (s : State) : (hostReset s).fcause = 0#2 := rfl
@[simp] theorem hostReset_fcmd (s : State) : (hostReset s).fcmd = 0#32 := rfl
@[simp] theorem hostReset_inputs (s : State) : (hostReset s).inputs = s.inputs := rfl

end Sys2Proof.Machine
end

