-- ==== Sys2Proof/Laws/Registers.lean ====
section
/-! SUPPORT. The laws of the word registers, of single flags, and of fault entry: what each named operation can do, said once. -/

namespace Sys2Proof.Machine

/-! ### Word registers -/

theorem readW_writeW (s : State) (i j : RegIdx) (v : Word) :
    (s.writeW i v).readW j = if j = i then v else s.readW j := by
  simp only [State.readW, State.writeW, Vector.getElem_set]
  by_cases h : j = i
  · simp [h]
  · have : i.val ≠ j.val := fun e => h (Fin.ext e.symm)
    simp [h, this]

@[simp] theorem readW_writeW_same (s : State) (i : RegIdx) (v : Word) : (s.writeW i v).readW i = v := by
  simp [readW_writeW]

@[simp] theorem readW_setCk (s : State) (i j : RegIdx) (b : Bool) : (s.setCk i b).readW j = s.readW j := rfl
@[simp] theorem readW_setCalf (s : State) (j : RegIdx) (b : Bool) : (s.setCalf b).readW j = s.readW j := rfl
@[simp] theorem readW_setInex (s : State) (j : RegIdx) (b : Bool) : (s.setInex b).readW j = s.readW j := rfl
@[simp] theorem readW_raiseFault (s : State) (k : FaultKind) (c : Cmd) (j : RegIdx) :
    (raiseFault k c s).readW j = s.readW j := rfl

theorem readW_loadW (s : State) (i j : RegIdx) (v : Word) :
    (s.loadW i v).readW j = if j = i then v else s.readW j := by
  simp [State.loadW, readW_writeW]

/-! ### The buffer of a state -/

@[simp] theorem readByte_writeW (s : State) (i : RegIdx) (v : Word) (a : Nat) :
    (s.writeW i v).readByte a = s.readByte a := rfl
@[simp] theorem readByte_setCk (s : State) (i : RegIdx) (b : Bool) (a : Nat) :
    (s.setCk i b).readByte a = s.readByte a := rfl
@[simp] theorem readByte_setCalf (s : State) (b : Bool) (a : Nat) : (s.setCalf b).readByte a = s.readByte a := rfl
@[simp] theorem readByte_setInex (s : State) (b : Bool) (a : Nat) : (s.setInex b).readByte a = s.readByte a := rfl
@[simp] theorem readByte_loadW (s : State) (i : RegIdx) (v : Word) (a : Nat) :
    (s.loadW i v).readByte a = s.readByte a := rfl
@[simp] theorem readByte_raiseFault (s : State) (k : FaultKind) (c : Cmd) (a : Nat) :
    (raiseFault k c s).readByte a = s.readByte a := rfl

/-! ### Flags -/

/-- Writing one flag changes that bit and no other. -/
theorem getLsbD_putBit (k j : Nat) (b : Bool) (f : BitVec 8) (hk : k < 8) :
    (putBit k b f).getLsbD j = if j = k then b else f.getLsbD j := by
  have hsh : ∀ j, (1#8 <<< k).getLsbD j = decide (j = k) := fun j => by
    by_cases hj : j < 8
    · by_cases hlt : j < k
      · have : j ≠ k := by omega
        simp [hj, hlt, this]
      · simp [hj, hlt]; omega
    · have : j ≠ k := by omega
      simp [hj, this]
  have hge : ¬ j < 8 → f.getLsbD j = false := fun h => BitVec.getLsbD_of_ge _ _ (by omega)
  cases b
  · simp only [putBit, Bool.false_eq_true, if_false, BitVec.getLsbD_and, BitVec.getLsbD_not, hsh]
    by_cases hj : j = k
    · simp [hj]
    · by_cases h8 : j < 8 <;> simp_all
  · simp only [putBit, if_true, BitVec.getLsbD_or, hsh]
    by_cases hj : j = k <;> simp [hj]

theorem ck_setCk (s : State) (i j : RegIdx) (b : Bool) :
    (s.setCk i b).ck j = if j = i then b else s.ck j := by
  simp only [State.ck, setCk_flags, getLsbD_putBit _ _ _ _ (by omega : i.val < 8)]
  by_cases h : j = i
  · simp [h]
  · have : j.val ≠ i.val := fun e => h (Fin.ext e)
    simp [h, this]

@[simp] theorem ck_writeW (s : State) (i j : RegIdx) (v : Word) : (s.writeW i v).ck j = s.ck j := rfl
@[simp] theorem calf_writeW (s : State) (i : RegIdx) (v : Word) : (s.writeW i v).calf = s.calf := rfl
@[simp] theorem inex_writeW (s : State) (i : RegIdx) (v : Word) : (s.writeW i v).inex = s.inex := rfl

theorem ck_loadW (s : State) (i j : RegIdx) (v : Word) :
    (s.loadW i v).ck j = if j = i then false else s.ck j := by
  simp [State.loadW, ck_setCk]

@[simp] theorem ck_setCalf (s : State) (j : RegIdx) (b : Bool) : (s.setCalf b).ck j = s.ck j := by
  rw [State.ck, setCalf_flags, getLsbD_putBit _ _ _ _ (by omega), if_neg (by omega)]; rfl
@[simp] theorem ck_setInex (s : State) (j : RegIdx) (b : Bool) : (s.setInex b).ck j = s.ck j := by
  rw [State.ck, setInex_flags, getLsbD_putBit _ _ _ _ (by omega), if_neg (by omega)]; rfl
@[simp] theorem calf_setCk (s : State) (i : RegIdx) (b : Bool) : (s.setCk i b).calf = s.calf := by
  rw [State.calf, setCk_flags, getLsbD_putBit _ _ _ _ (by omega), if_neg (by omega)]; rfl
@[simp] theorem inex_setCk (s : State) (i : RegIdx) (b : Bool) : (s.setCk i b).inex = s.inex := by
  rw [State.inex, setCk_flags, getLsbD_putBit _ _ _ _ (by omega), if_neg (by omega)]; rfl
@[simp] theorem calf_setCalf (s : State) (b : Bool) : (s.setCalf b).calf = b := by
  rw [State.calf, setCalf_flags, getLsbD_putBit _ _ _ _ (by omega), if_pos rfl]
@[simp] theorem inex_setCalf (s : State) (b : Bool) : (s.setCalf b).inex = s.inex := by
  rw [State.inex, setCalf_flags, getLsbD_putBit _ _ _ _ (by omega), if_neg (by omega)]; rfl
@[simp] theorem calf_setInex (s : State) (b : Bool) : (s.setInex b).calf = s.calf := by
  rw [State.calf, setInex_flags, getLsbD_putBit _ _ _ _ (by omega), if_neg (by omega)]; rfl
@[simp] theorem inex_setInex (s : State) (b : Bool) : (s.setInex b).inex = b := by
  rw [State.inex, setInex_flags, getLsbD_putBit _ _ _ _ (by omega), if_pos rfl]
@[simp] theorem calf_loadW (s : State) (i : RegIdx) (v : Word) : (s.loadW i v).calf = s.calf := by
  simp [State.loadW]
@[simp] theorem inex_loadW (s : State) (i : RegIdx) (v : Word) : (s.loadW i v).inex = s.inex := by
  simp [State.loadW]
@[simp] theorem ck_raiseFault (s : State) (k : FaultKind) (c : Cmd) (j : RegIdx) :
    (raiseFault k c s).ck j = s.ck j := rfl
@[simp] theorem calf_raiseFault (s : State) (k : FaultKind) (c : Cmd) : (raiseFault k c s).calf = s.calf := rfl
@[simp] theorem inex_raiseFault (s : State) (k : FaultKind) (c : Cmd) : (raiseFault k c s).inex = s.inex := rfl

/-! ### Fault entry (R153) -/

/-- A fault that is not the first keeps the record of the first. -/
theorem raiseFault_not_first {s : State} (h : s.fcause ≠ 0#2) (k : FaultKind) (c : Cmd) :
    raiseFault k c s = { s with fault := k.mark s.fault } := by
  simp [raiseFault, h]

/-- The first fault records its cause and its command word. -/
theorem raiseFault_first {s : State} (h : s.fcause = 0#2) (k : FaultKind) (c : Cmd) :
    raiseFault k c s = { s with fault := k.mark s.fault, fcause := k.code, fcmd := c } := by
  simp [raiseFault, h]

theorem code_ne_zero (k : FaultKind) : k.code ≠ 0#2 := by cases k <;> decide

end Sys2Proof.Machine
end

