-- ==== Sys2Proof/Laws/Meanings.lean ====
section
/-! SUPPORT. One equation per meaning and per way it ends: the state it leaves, in the named operations. -/

namespace Sys2Proof.Machine

/-! ### Operand forms -/

theorem byteAddr_exists {a : BitVec 4} (h : a.toNat < 9) : byteAddr a = some a.toNat := by
  simp [byteAddr, Config.bufBytes, h]

theorem byteAddr_absent {a : BitVec 4} (h : 9 ≤ a.toNat) : byteAddr a = none := by
  simp [byteAddr, Config.bufBytes]; omega

theorem groupAddr_val (i : RegIdx) : groupAddr i = 3 * i.val := rfl

theorem groupCrcAddr_val (i : RegIdx) : groupCrcAddr i = 3 * i.val + 2 := rfl

/-! ### Host access -/

theorem execStb_exists {a : BitVec 4} (h : a.toNat < 9) (d : BitVec 8) (s : State) :
    execStb a d s = .next { s with buf := s.buf.write a.toNat d } := by
  simp only [execStb, byteAddr_exists h, Memory.memWrite_one]

theorem execStb_absent {a : BitVec 4} (h : 9 ≤ a.toNat) (d : BitVec 8) (s : State) :
    execStb a d s = .next (raiseFault .bufferBounds (encode (.stb a d)) s) := by
  simp only [execStb, byteAddr_absent h]

theorem execLdb_exists {a : BitVec 4} (h : a.toNat < 9) (s : State) :
    execLdb a s = .next { s with dout := s.readByte a.toNat } := by
  simp only [execLdb, byteAddr_exists h, Memory.memRead_one]; rfl

theorem execLdb_absent {a : BitVec 4} (h : 9 ≤ a.toNat) (s : State) :
    execLdb a s = .next (raiseFault .bufferBounds (encode (.ldb a)) s) := by
  simp only [execLdb, byteAddr_absent h]

/-! ### Word codec -/

theorem groupOf_bytes (w : Word) :
    (groupOf w).extractLsb' 16 8 = highByte w ∧ (groupOf w).extractLsb' 8 8 = lowByte w
      ∧ (groupOf w).extractLsb' 0 8 = crc8 w := by
  refine ⟨?_, ?_, ?_⟩ <;>
    · refine BitVec.eq_of_getLsbD_eq (fun i hi => ?_)
      simp only [groupOf, highByte, lowByte, BitVec.getLsbD_extractLsb', BitVec.getLsbD_append, hi, decide_true,
        Bool.true_and]
      first
        | rw [if_neg (by omega)]; congr 1; omega
        | rw [if_pos (by omega)]; congr 1; omega

/-- The word of a group, byte by byte. -/
theorem groupWord_bytes (s : State) (i : RegIdx) :
    s.groupWord i = s.readByte (3 * i.val) ++ s.readByte (3 * i.val + 1) := by
  simp only [State.groupWord, Memory.memRead_two, groupAddr_val]; rfl

@[simp] theorem groupWord_unpackGroup (s : State) (i j : RegIdx) : (unpackGroup s i).groupWord j = s.groupWord j := rfl
@[simp] theorem groupCrc_unpackGroup (s : State) (i j : RegIdx) : (unpackGroup s i).groupCrc j = s.groupCrc j := rfl

theorem readW_unpackGroup (s : State) (i j : RegIdx) :
    (unpackGroup s i).readW j = if j = i then s.groupWord i else s.readW j := by
  simp [unpackGroup, readW_writeW]

theorem ck_unpackGroup (s : State) (i j : RegIdx) :
    (unpackGroup s i).ck j = if j = i then checksumMismatch (s.groupWord i) (s.groupCrc i) else s.ck j := by
  simp [unpackGroup, ck_setCk]

/-- UNPACK group by group: everything an iteration can do, whatever groups come after it. -/
theorem unpackGroups_frame (l : List RegIdx) (s : State) :
    let t := l.foldl unpackGroup s
    t.acc = s.acc ∧ t.res = s.res ∧ t.ser = s.ser ∧ t.dout = s.dout ∧ t.buf = s.buf ∧ t.fault = s.fault
      ∧ t.fcause = s.fcause ∧ t.fcmd = s.fcmd ∧ t.inputs = s.inputs ∧ t.calf = s.calf ∧ t.inex = s.inex := by
  induction l generalizing s with
  | nil => simp
  | cons i l ih =>
    have h := ih (unpackGroup s i)
    have hc : (unpackGroup s i).calf = s.calf := by simp [unpackGroup]
    have hx : (unpackGroup s i).inex = s.inex := by simp [unpackGroup]
    simp only [hc, hx] at h
    exact h

/-- Every group of the list is unpacked from the buffer as it was, and no other register is written. -/
theorem readW_unpackGroups (l : List RegIdx) (s : State) (j : RegIdx) :
    (l.foldl unpackGroup s).readW j = if j ∈ l then s.groupWord j else s.readW j := by
  induction l generalizing s with
  | nil => simp
  | cons i l ih =>
    rw [List.foldl_cons, ih, groupWord_unpackGroup, readW_unpackGroup]
    by_cases hj : j = i <;> simp [hj]

theorem ck_unpackGroups (l : List RegIdx) (s : State) (j : RegIdx) :
    (l.foldl unpackGroup s).ck j = if j ∈ l then checksumMismatch (s.groupWord j) (s.groupCrc j) else s.ck j := by
  induction l generalizing s with
  | nil => simp
  | cons i l ih =>
    rw [List.foldl_cons, ih, groupWord_unpackGroup, groupCrc_unpackGroup, ck_unpackGroup]
    by_cases hj : j = i <;> simp [hj]

theorem mem_groupsBelow (n : BitVec 2) (j : RegIdx) : j ∈ groupsBelow n ↔ j.val < n.toNat := by
  have : j ∈ ([0, 1, 2] : List RegIdx) := by fin_cases j <;> simp
  simp [groupsBelow, List.mem_filter, this]

/-! ### Unit converter: the values with the constants of Config in figures -/

theorem tempQ16_eq (raw : Word) : tempQ16 raw = 175 * (raw.toNat : Int) - 2949120 := rfl

theorem humidityQ16_eq (raw : Word) : humidityQ16 raw = 100 * raw.toNat := rfl

theorem offsetQuotient_eq (x : BitVec 24) : offsetQuotient x = (x.toNat + 87) / 175 := rfl

theorem pressureQuotient_eq (p : BitVec 24) : pressureQuotient p = p.toNat / 100 := rfl

theorem inexactPressure_eq (p : BitVec 24) : inexactPressure p = (p.toNat % 100 != 0) := rfl

theorem correction_eq (raw : Word) : correction raw = (raw.toNat : Int) - 32768 := rfl

theorem dataReady_eq (status : Word) : dataReady status = (status &&& 0x07FF#16 != 0) := rfl

/-- The operands that the offset encoder accepts (R126). -/
theorem offsetQuotient_fits (x : BitVec 24) : offsetQuotient x ≤ 65535 ↔ x.toNat < 11468713 := by
  rw [offsetQuotient_eq]; omega

/-- The operands that the pressure encoder accepts (R130). -/
theorem pressureQuotient_fits (p : BitVec 24) : pressureQuotient p ≤ 65535 ↔ p.toNat < 6553600 := by
  rw [pressureQuotient_eq]; omega

/-! ### Unit converter -/

theorem execTofse_fits {i : RegIdx} {x : BitVec 24} (h : offsetQuotient x ≤ 65535) (s : State) :
    execTofse i x s = .next (s.loadW i (BitVec.ofNat 16 (offsetQuotient x))) := by
  simp only [execTofse, Config.wordMax, if_neg (Nat.not_lt.mpr h)]

theorem execTofse_tooLarge {i : RegIdx} {x : BitVec 24} (h : 65535 < offsetQuotient x) (s : State) :
    execTofse i x s = .next (raiseFault .rangeError (encode (.tofse i x)) s) := by
  simp only [execTofse, Config.wordMax, if_pos h]

theorem execPrese_fits {i : RegIdx} {p : BitVec 24} (h : pressureQuotient p ≤ 65535) (s : State) :
    execPrese i p s = .next ((s.loadW i (BitVec.ofNat 16 (pressureQuotient p))).setInex (inexactPressure p)) := by
  simp only [execPrese, Config.wordMax, if_neg (Nat.not_lt.mpr h)]

theorem execPrese_tooLarge {i : RegIdx} {p : BitVec 24} (h : 65535 < pressureQuotient p) (s : State) :
    execPrese i p s = .next (raiseFault .rangeError (encode (.prese i p)) s) := by
  simp only [execPrese, Config.wordMax, if_pos h]

theorem execFrc_failed {i : RegIdx} {s : State} (h : s.readW i = 0xFFFF#16) :
    execFrc i s = .next (s.setCalf true) := by
  simp [execFrc, calibrationFailed, h]

theorem execFrc_ok {i : RegIdx} {s : State} (h : s.readW i ≠ 0xFFFF#16) :
    execFrc i s = .next { s.setCalf false with res := BitVec.ofInt 32 (correction (s.readW i)) } := by
  simp [execFrc, calibrationFailed, h]

end Sys2Proof.Machine
end

