-- ==== Sys2Proof/Laws/PerInstr.lean ====
section
/-! SUPPORT. The family EncodesIntoRow, one lemma per constructor of Instr: the encoding of an instruction selects the row of
the opcode table (R72) that bears its mnemonic. -/

namespace Sys2Proof.Laws.EncodesIntoRow

/-- The one encoding of an instruction matches its row of the opcode table and no excluded pattern (R72). -/
def Statement (i : Instr) : Prop :=
  ∃ r ∈ opcodeTable, r.mnemonic = i.mnemonic ∧ r.selects (encode i) = true

theorem nop : Statement .nop := ⟨opcodeTable[0], by decide, by decide, by decide⟩

theorem ser : Statement .ser := ⟨opcodeTable[13], by decide, by decide, by decide⟩

theorem crc8 (i : RegIdx) : Statement (.crc8 i) :=
  ⟨opcodeTable[4], by decide, rfl, by revert i; decide⟩

theorem pack (i : RegIdx) : Statement (.pack i) :=
  ⟨opcodeTable[5], by decide, rfl, by revert i; decide⟩

theorem unpack (n : BitVec 2) : Statement (.unpack n) :=
  ⟨opcodeTable[6], by decide, rfl, by revert n; decide⟩

theorem co2 (i : RegIdx) : Statement (.co2 i) :=
  ⟨opcodeTable[7], by decide, rfl, by revert i; decide⟩

theorem temp (i : RegIdx) : Statement (.temp i) :=
  ⟨opcodeTable[8], by decide, rfl, by revert i; decide⟩

theorem rh (i : RegIdx) : Statement (.rh i) :=
  ⟨opcodeTable[9], by decide, rfl, by revert i; decide⟩

theorem frc (i : RegIdx) : Statement (.frc i) :=
  ⟨opcodeTable[12], by decide, rfl, by revert i; decide⟩

theorem drdy (i : RegIdx) : Statement (.drdy i) :=
  ⟨opcodeTable[14], by decide, rfl, by revert i; decide⟩

theorem ldb (a : BitVec 4) : Statement (.ldb a) :=
  ⟨opcodeTable[3], by decide, rfl, by revert a; decide⟩

theorem idxMask_eq : (0x03000000#32 : Cmd) = wordOf 0#6 3#2 0#24 := by decide

/-- A word register's IDX is not 3, whatever the opcode and the immediate. -/
theorem wordOf_idx_ne (op : BitVec 6) (i : RegIdx) (imm : BitVec 24) :
    (wordOf op (idxOfReg i) imm &&& 0x03000000#32 == 0x03000000#32) = false := by
  rw [idxMask_eq, wordOf_and]
  simp only [BitVec.and_zero]
  revert i; decide

theorem imm16_masked (imm16 : BitVec 16) : (0#8 ++ imm16 : BitVec 24) &&& 0xFF0000#24 = 0#24 := by
  rw [show (0xFF0000#24 : BitVec 24) = 0xFF#8 ++ 0#16 by decide, BitVec.and_append]
  simp

theorem storeImm_masked (a : BitVec 4) (d : BitVec 8) :
    (0#12 ++ a ++ d : BitVec 24) &&& 0xFFF000#24 = 0#24 := by
  rw [show (0xFFF000#24 : BitVec 24) = 0xFFF#12 ++ 0#4 ++ 0#8 by decide, BitVec.and_append, BitVec.and_append]
  simp

theorem ldw (i : RegIdx) (imm16 : BitVec 16) : Statement (.ldw i imm16) := by
  refine ⟨opcodeTable[1], by decide, rfl, ?_⟩
  have h : encode (.ldw i imm16) &&& 0xFCFF0000#32 = 0x04000000#32 := by
    rw [show (0xFCFF0000#32 : Cmd) = wordOf 0x3F#6 0#2 0xFF0000#24 by decide, encode, wordOf_and, imm16_masked]
    simp; decide
  have hi : (encode (.ldw i imm16) &&& 0x03000000#32 == 0x03000000#32) = false := wordOf_idx_ne _ _ _
  simp [OpcodeRow.selects, opcodeTable, h, hi]

theorem stb (a : BitVec 4) (d : BitVec 8) : Statement (.stb a d) := by
  refine ⟨opcodeTable[2], by decide, rfl, ?_⟩
  have h : encode (.stb a d) &&& 0xFFFFF000#32 = 0x08000000#32 := by
    rw [show (0xFFFFF000#32 : Cmd) = wordOf 0x3F#6 3#2 0xFFF000#24 by decide, encode, wordOf_and, storeImm_masked]
    decide
  simp [OpcodeRow.selects, opcodeTable, h, Format.namesRegister]

theorem tofse (i : RegIdx) (x : BitVec 24) : Statement (.tofse i x) := by
  refine ⟨opcodeTable[10], by decide, rfl, ?_⟩
  have h : encode (.tofse i x) &&& 0xFC000000#32 = 0x8C000000#32 := by
    rw [show (0xFC000000#32 : Cmd) = wordOf 0x3F#6 0#2 0#24 by decide, encode, wordOf_and]
    simp; decide
  have hi : (encode (.tofse i x) &&& 0x03000000#32 == 0x03000000#32) = false := wordOf_idx_ne _ _ _
  simp [OpcodeRow.selects, opcodeTable, h, hi]

theorem prese (i : RegIdx) (p : BitVec 24) : Statement (.prese i p) := by
  refine ⟨opcodeTable[11], by decide, rfl, ?_⟩
  have h : encode (.prese i p) &&& 0xFC000000#32 = 0x90000000#32 := by
    rw [show (0xFC000000#32 : Cmd) = wordOf 0x3F#6 0#2 0#24 by decide, encode, wordOf_and]
    simp; decide
  have hi : (encode (.prese i p) &&& 0x03000000#32 == 0x03000000#32) = false := wordOf_idx_ne _ _ _
  simp [OpcodeRow.selects, opcodeTable, h, hi]

end Sys2Proof.Laws.EncodesIntoRow
end

