-- ==== Sys2Proof/Tests/Slice0.lean ====
section
/-! SUPPORT. The model's own tests. Expected values are the spec's: the worked encodings of 30_encoding.md, the vectors S1 to
V51 and the programs P1 to P5 of 95_test_vectors.md, and the corner cases of the instruction templates. The witnesses at the
end show that the hypotheses of each statement of Obligations.lean can be met, at the boundary values of its clauses. -/

namespace Sys2Proof.Tests

open Sys2Proof.Machine

/-- The command, run in `s`, ends in a next state that satisfies `p`. -/
def after (i : Instr) (s : State) (p : State → Bool) : Bool :=
  match exec i s with
  | .next t => p t
  | _       => false

/-- The command word, run in `s`, ends in a next state that satisfies `p`. -/
def afterWord (c : Cmd) (s : State) (p : State → Bool) : Bool :=
  match runCommand c s with
  | .next t => p t
  | _       => false

/-- Reset with one word register loaded. -/
def withW (i : RegIdx) (v : Word) : State := State.reset.writeW i v

/-- Reset with the buffer holding the given bytes from address 0 on. -/
def withBuf (bytes : List Byte) : State :=
  { State.reset with buf := (List.zip (List.range 9) bytes).foldl (fun m c => m.write c.1 c.2) [] }

/-- The measurement buffer of V21. -/
def measurement : State := withBuf [0x01#8, 0xF4#8, 0x33#8, 0x66#8, 0x67#8, 0xA2#8, 0x5E#8, 0xB9#8, 0x3C#8]

/-- The nine bytes of BUF. -/
def bytes (s : State) : List Byte := (List.range 9).map s.readByte

/-! ### Ill-formed words and statements: one for each check (R75, R78) -/

theorem smoke_reservedOpcode : wellFormedWord 0x10000000#32 = false ∧ reservedOpcodeWord 0x10000000#32 = true := by decide
theorem smoke_noRegister : wellFormedWord 0x23000000#32 = false ∧ noRegisterWord 0x23000000#32 = true := by decide
theorem smoke_noRegister_i16 : wellFormedWord 0x07000000#32 = false ∧ noRegisterWord 0x07000000#32 = true := by decide
theorem smoke_noRegister_i24 : wellFormedWord 0x8F000000#32 = false ∧ noRegisterWord 0x8F000000#32 = true := by decide
theorem smoke_nonzeroField_z : wellFormedWord 0x00000001#32 = false ∧ nonzeroFieldWord 0x00000001#32 = true := by decide
theorem smoke_nonzeroField_r : wellFormedWord 0x20000001#32 = false ∧ nonzeroFieldWord 0x20000001#32 = true := by decide
theorem smoke_nonzeroField_n : wellFormedWord 0x44000001#32 = false ∧ nonzeroFieldWord 0x44000001#32 = true := by decide
theorem smoke_nonzeroField_i16 : wellFormedWord 0x04010000#32 = false ∧ nonzeroFieldWord 0x04010000#32 = true := by decide
theorem smoke_nonzeroField_sb : wellFormedWord 0x08001000#32 = false ∧ nonzeroFieldWord 0x08001000#32 = true := by decide
theorem smoke_nonzeroField_lb : wellFormedWord 0x0C000201#32 = false ∧ nonzeroFieldWord 0x0C000201#32 = true := by decide
theorem smoke_wellFormed : wellFormedWord 0x47000000#32 = true ∧ wellFormedWord 0x8EFFFFFF#32 = true := by decide
theorem smoke_stmt_register : Stmt.wellFormed (.crc8 3) = false ∧ assemble (.crc8 3) = none := by decide
theorem smoke_stmt_count : Stmt.wellFormed (.unpack 4) = false ∧ assemble (.unpack 4) = none := by decide
theorem smoke_stmt_address : Stmt.wellFormed (.ldb 16) = false ∧ assemble (.ldb 16) = none := by decide
theorem smoke_stmt_imm16 : Stmt.wellFormed (.ldw 0 65536) = false ∧ assemble (.ldw 0 65536) = none := by decide
theorem smoke_stmt_imm24 : Stmt.wellFormed (.prese 0 16777216) = false ∧ assemble (.prese 0 16777216) = none := by decide
theorem smoke_stmt_byte : Stmt.wellFormed (.stb 0 256) = false ∧ assemble (.stb 0 256) = none := by decide
theorem smoke_stmt_group : Stmt.wellFormed (.stg 3 0 0 0) = false ∧ assemble (.stg 3 0 0 0) = none := by decide

/-! ### Decoding: words written out from the formats of R71 (op, idx, imm24), and V50 -/

theorem test_decode_ldw : decode 0b000001_10_00000000_1111111111111111#32 = .command (.ldw 2 0xFFFF#16) := by decide
theorem test_decode_stb : decode 0b000010_00_000000000000_1111_00000000#32 = .command (.stb 15#4 0x00#8) := by decide
theorem test_decode_ldb : decode 0b000011_00_000000000000_1000_00000000#32 = .command (.ldb 8#4) := by decide
theorem test_decode_crc8 : decode 0b001000_10_000000000000000000000000#32 = .command (.crc8 2) := by decide
theorem test_decode_pack : decode 0b010000_01_000000000000000000000000#32 = .command (.pack 1) := by decide
theorem test_decode_unpack : decode 0b010001_11_000000000000000000000000#32 = .command (.unpack 3#2) := by decide
theorem test_decode_co2 : decode 0b100000_01_000000000000000000000000#32 = .command (.co2 1) := by decide
theorem test_decode_temp : decode 0b100001_10_000000000000000000000000#32 = .command (.temp 2) := by decide
theorem test_decode_rh : decode 0b100010_00_000000000000000000000000#32 = .command (.rh 0) := by decide
theorem test_decode_tofse : decode 0b100011_10_111111111111111111111111#32 = .command (.tofse 2 0xFFFFFF#24) := by decide
theorem test_decode_prese : decode 0b100100_10_011000111111111111111111#32 = .command (.prese 2 0x63FFFF#24) := by decide
theorem test_decode_frc : decode 0b100101_01_000000000000000000000000#32 = .command (.frc 1) := by decide
theorem test_decode_ser : decode 0b100110_00_000000000000000000000000#32 = .command .ser := by decide
theorem test_decode_drdy : decode 0b100111_10_000000000000000000000000#32 = .command (.drdy 2) := by decide
theorem test_decode_nop : decode 0#32 = .command .nop := by decide

/-- The illegal words of V50, with the class of R75 each belongs to. -/
theorem test_decode_illegal :
    decode 0x00000001#32 = .illegal .nonzeroField ∧ decode 0x03000000#32 = .illegal .nonzeroField
    ∧ decode 0x07000000#32 = .illegal .noSuchRegister ∧ decode 0x04010000#32 = .illegal .nonzeroField
    ∧ decode 0x0C000201#32 = .illegal .nonzeroField ∧ decode 0x08001000#32 = .illegal .nonzeroField
    ∧ decode 0x0A000900#32 = .illegal .nonzeroField ∧ decode 0x10000000#32 = .illegal .reservedOpcode
    ∧ decode 0x23000000#32 = .illegal .noSuchRegister ∧ decode 0x20000001#32 = .illegal .nonzeroField
    ∧ decode 0x44000001#32 = .illegal .nonzeroField ∧ decode 0x8F000000#32 = .illegal .noSuchRegister
    ∧ decode 0x99000000#32 = .illegal .nonzeroField ∧ decode 0x9F000000#32 = .illegal .noSuchRegister
    ∧ decode 0xA0000000#32 = .illegal .reservedOpcode ∧ decode 0xFC000000#32 = .illegal .reservedOpcode
    ∧ decode 0xFFFFFFFF#32 = .illegal .reservedOpcode := by decide

theorem test_decodeTableWord : decodeTableWord 32 0x90018BCD = some (.prese 0 101325#24)
    ∧ decodeTableWord 32 0xFC000000 = none := by decide

theorem test_withFetchWord : (match step (State.reset.withFetchWord 32 0x0500BEEF) with
    | .next t => t.readW 1 == 0xBEEF#16 && t.inputs == []
    | _ => false) = true := by decide

/-! ### The CRC engine (V10 to V15) -/

theorem test_crcBit : crcBit 0x80#8 = 0x31#8 ∧ crcBit 0xFF#8 = 0xCF#8 ∧ crcBit 0x7F#8 = 0xFE#8 ∧ crcBit 0x98#8 = 0x01#8 := by
  decide
theorem test_crc8_values : crc8 0xBEEF#16 = 0x92#8 ∧ crc8 0x0000#16 = 0x81#8 ∧ crc8 0xFFFF#16 = 0xAC#8
    ∧ crc8 0xFF00#16 = 0x00#8 ∧ crc8 0x3BBE#16 = 0x89#8 := by decide +kernel
theorem test_crc8_command : after (.crc8 1) (withW 1 0xBEEF#16) (fun t => t.acc == 0x92#8 && t.readW 1 == 0xBEEF#16) = true := by decide +kernel
theorem test_crc8_reset : State.reset.acc = 0xFF#8 ∧ after (.crc8 0) State.reset (fun t => t.acc == 0x81#8) = true := by decide +kernel

/-! ### The word codec (V20 to V25) -/

theorem test_pack_group1 : after (.pack 1) (withW 1 0xBEEF#16) (fun t =>
    bytes t == [0x00#8, 0x00#8, 0x00#8, 0xBE#8, 0xEF#8, 0x92#8, 0x00#8, 0x00#8, 0x00#8] && t.acc == 0xFF#8) = true := by decide +kernel
theorem test_pack_group2 : after (.pack 2) (withW 2 0x1234#16) (fun t =>
    bytes t == [0x00#8, 0x00#8, 0x00#8, 0x00#8, 0x00#8, 0x00#8, 0x12#8, 0x34#8, 0x37#8] && decide t.buf.wf) = true := by decide +kernel
theorem test_unpack_three : after (.unpack 3#2) measurement (fun t =>
    t.readW 0 == 0x01F4#16 && t.readW 1 == 0x6667#16 && t.readW 2 == 0x5EB9#16 && t.flags == 0x00#8) = true := by decide +kernel
theorem test_unpack_reset_buffer : after (.unpack 3#2) State.reset (fun t =>
    t.w == State.reset.w && t.flags == 0b00000111#8 && t.fault == 0#3) = true := by decide +kernel
theorem test_unpack_two_keeps_third : after (.unpack 2#2) ((withBuf [0x80#8, 0x00#8, 0xA3#8]).writeW 2 0x1111#16) (fun t =>
    t.readW 0 == 0x8000#16 && t.readW 2 == 0x1111#16 && t.ck 0 && !t.ck 2) = true := by decide +kernel

/-! ### The unit converter (V30 to V37) -/

theorem test_co2 : after (.co2 0) (withW 0 0xFFFF#16) (fun t => t.res == 0x0000FFFF#32) = true := by decide
theorem test_temp_values : after (.temp 1) (withW 1 0x6667#16) (fun t => t.res == 0x00190069#32) = true
    ∧ after (.temp 0) State.reset (fun t => t.res == 0xFFD30000#32) = true := by decide
theorem test_temp_sign : after (.temp 2) (withW 2 0x41D4#16) (fun t => t.res == 0xFFFFFFEC#32) = true
    ∧ after (.temp 2) (withW 2 0x41D5#16) (fun t => t.res == 0x0000009B#32) = true := by decide
theorem test_rh : after (.rh 2) (withW 2 0x5EB9#16) (fun t => t.res == 0x00250044#32) = true
    ∧ after (.rh 0) (withW 0 0xFFFF#16) (fun t => t.res == 0x0063FF9C#32) = true := by decide
theorem test_tofse_rounding : after (.tofse 0 87#24) State.reset (fun t => t.readW 0 == 0#16) = true
    ∧ after (.tofse 0 88#24) State.reset (fun t => t.readW 0 == 1#16) = true
    ∧ after (.tofse 0 0xAEFFA8#24) State.reset (fun t => t.readW 0 == 0xFFFF#16 && t.fault == 0#3) = true := by decide
theorem test_tofse_range : afterWord 0x8DAEFFA9#32 State.reset (fun t =>
    t.fault == 0b100#3 && t.fcause == 3#2 && t.fcmd == 0x8DAEFFA9#32 && t.readW 1 == 0#16) = true := by decide
theorem test_prese : after (.prese 0 101325#24) State.reset (fun t => t.readW 0 == 0x03F5#16 && t.flags == 0x20#8) = true
    ∧ after (.prese 0 101300#24) (State.reset.setInex true) (fun t => t.readW 0 == 0x03F5#16 && t.flags == 0x00#8) = true := by
  decide
theorem test_prese_range : afterWord 0x9263FFFF#32 State.reset (fun t => t.readW 2 == 0xFFFF#16 && t.fault == 0#3) = true
    ∧ afterWord 0x92640000#32 State.reset (fun t => t.fcause == 3#2 && t.fcmd == 0x92640000#32 && t.flags == 0#8) = true := by
  decide
theorem test_frc : after (.frc 0) State.reset (fun t => t.res == 0xFFFF8000#32 && !t.calf) = true
    ∧ after (.frc 0) (withW 0 0xFFFE#16) (fun t => t.res == 0x00007FFE#32) = true := by decide
theorem test_frc_failed : after (.frc 0) { withW 0 0xFFFF#16 with res := 5#32 } (fun t => t.flags == 0x10#8 && t.res == 5#32) = true
    := by decide
theorem test_ser : after .ser (((withW 0 0xF896#16).writeW 1 0x9F07#16).writeW 2 0x3BBE#16) (fun t =>
    t.ser == 0xF8969F073BBE#48) = true := by decide
theorem test_drdy : after (.drdy 0) (withW 0 0x8001#16) (fun t => t.res == 1#32) = true
    ∧ after (.drdy 0) (withW 0 0xF800#16) (fun t => t.res == 0#32) = true := by decide

/-! ### Host access (V40, V41) and faults (V51) -/

theorem test_ldw : afterWord 0x0600FFFF#32 (State.reset.setCk 2 true) (fun t => t.readW 2 == 0xFFFF#16 && !t.ck 2) = true := by
  decide
theorem test_stb : afterWord 0x080008AB#32 State.reset (fun t => t.buf == [(8, 0xAB#8)]) = true
    ∧ after (.stb 8#4 0x00#8) (withBuf [0, 0, 0, 0, 0, 0, 0, 0, 0xAB#8]) (fun t => t.buf == []) = true := by decide
theorem test_stb_bounds : afterWord 0x08000900#32 State.reset (fun t =>
    t.fault == 0b010#3 && t.fcause == 2#2 && t.fcmd == 0x08000900#32 && t.buf == []) = true := by decide
theorem test_ldb : afterWord 0x0C000800#32 measurement (fun t => t.dout == 0x3C#8) = true
    ∧ afterWord 0x0C000900#32 measurement (fun t => t.dout == 0x00#8 && t.fault == 0b010#3 && t.fcmd == 0x0C000900#32) = true := by
  decide
theorem test_nop : after .nop measurement (fun t => t == measurement) = true := by decide
theorem test_priority : afterWord 0x0A000900#32 State.reset (fun t => t.fault == 0b001#3 && t.fcause == 1#2) = true := by decide
theorem test_first_fault_kept :
    afterWord 0x8CFFFFFF#32 (raiseFault .illegalCommand 0xFC000000#32 State.reset) (fun t =>
      t.fault == 0b101#3 && t.fcause == 1#2 && t.fcmd == 0xFC000000#32 && t.readW 0 == 0#16) = true := by decide

/-! ### The assembler (R78, R79) -/

theorem test_assemble_stg : assembleLine "STG 1, 0x66, 0x67, 0xA2".toList
    = some [0x08000366#32, 0x08000467#32, 0x080005A2#32] := by decide
theorem test_assemble_alias : assembleLine "TOFSD w0".toList = some [0x84000000#32]
    ∧ assembleLine "ALTE w1, 48879 ; altitude".toList = some [0x0500BEEF#32] := by decide
theorem test_assemble_refuses : assembleLine "CRC8 w3".toList = none ∧ assembleLine "LDW w0, 65536".toList = none
    ∧ assembleLine "NOP 1".toList = none ∧ assembleLine "nop".toList = none ∧ assembleLine "  ; comment".toList = some [] := by
  decide

/-! ### Witnesses: states and operands that meet the hypotheses of each statement -/

/-- A state with one pending command word. -/
def offered (c : Cmd) : State := offerCommand c State.reset

/-- A state with a recorded fault, which meets the invariant and no run needs to reach. -/
theorem faulted_inv : (raiseFault .bufferBounds 0x08000900#32 measurement).inv := by
  refine ⟨by decide, by unfold State.reservedFlagsZero; decide, by decide, by decide, fun k hk => ?_⟩
  cases k
  · exact absurd hk (by decide)
  · decide
  · exact absurd hk (by decide)

theorem witness_EachCommandHasOneEncoding : decode 0x0500BEEF#32 = .command (.ldw 1 0xBEEF#16) := by decide

theorem witness_DecoderAgreesWithOpcodeTable :
    (∃ r ∈ opcodeTable, r.selects 0x47000000#32 = true) ∧ (∀ r ∈ opcodeTable, r.selects 0x48000000#32 = false) := by decide

theorem witness_IllegalWordsRaiseIllegalCommandOnly :
    reservedOpcodeWord 0x28000000#32 = true ∧ noRegisterWord 0x9F000000#32 = true ∧ nonzeroFieldWord 0x00800000#32 = true := by
  decide

theorem witness_StepRunsTheDecodedCommand :
    (offered 0x22000000#32).inputs = [.command 0x22000000#32] ∧ decode 0x22000000#32 = .command (.crc8 2) := by decide

theorem witness_StepOnIllegalWordTakesIllegalCommand :
    (offered 0xFFFFFFFF#32).inputs = [.command 0xFFFFFFFF#32] ∧ decode 0xFFFFFFFF#32 = .illegal .reservedOpcode := by decide

theorem witness_ResetGivesEveryRegisterItsResetValue :
    ({ measurement with inputs := [.reset, .command 0#32] } : State).inputs = .reset :: [.command 0#32]
    ∧ (⟨true, true, 0x40000000#32⟩ : Pins).rst = true := by decide

theorem witness_StepWithoutInputLeavesTheState : measurement.inputs = [] := by decide

theorem witness_EveryWordTakesExactlyTheFaultOfTheTable :
    faultOfWord 0x0A000900#32 = some .illegalCommand ∧ faultOfWord 0x08000900#32 = some .bufferBounds
    ∧ faultOfWord 0x08000800#32 = none ∧ faultOfWord 0x0C000F00#32 = some .bufferBounds
    ∧ faultOfWord 0x8DAEFFA9#32 = some .rangeError ∧ faultOfWord 0x8DAEFFA8#32 = none
    ∧ faultOfWord 0x92640000#32 = some .rangeError ∧ faultOfWord 0x9263FFFF#32 = none := by decide

theorem witness_BufferBoundsIsRaisedByByteAccessesOnly :
    9 ≤ (9#4).toNat ∧ 9 ≤ (15#4).toNat
    ∧ after (.stb 9#4 0#8) State.reset (fun t => t.fault.getLsbD 1 != State.reset.fault.getLsbD 1) = true := by decide

theorem witness_RangeErrorIsRaisedByEncodersOnly :
    11468713 ≤ (0xAEFFA9#24).toNat ∧ 6553600 ≤ (0x640000#24).toNat
    ∧ after (.prese 2 0x640000#24) State.reset (fun t => t.fault.getLsbD 2 != State.reset.fault.getLsbD 2) = true := by decide

theorem witness_FaultRegistersAreStickyUntilReset :
    let s := raiseFault .bufferBounds 0x08000900#32 (offered 0x8CFFFFFF#32)
    (∃ t, step s = .next t) ∧ s.inputs.head? ≠ some .reset ∧ s.fault.getLsbD 1 = true ∧ s.fcause ≠ 0 :=
  ⟨⟨_, rfl⟩, by decide, by decide, by decide⟩

theorem witness_FaultRegistersDescribeTheWholeRun :
    State.reset.fault = 0 ∧ State.reset.fcause = 0
    ∧ (∃ t, runCommands [0x00000000#32, 0xFC000000#32, 0x08000900#32] State.reset = .next t)
    ∧ [0x00000000#32, 0xFC000000#32, 0x08000900#32].find? (fun c => (faultOfWord c).isSome) = some 0xFC000000#32
    ∧ [0x00000000#32, 0x08000800#32].find? (fun c => (faultOfWord c).isSome) = none :=
  ⟨rfl, rfl, ⟨_, rfl⟩, by decide, by decide⟩

theorem witness_EveryStepKeepsTheInvariant :
    (raiseFault .bufferBounds 0x08000900#32 measurement).inv
    ∧ ∃ t, step (raiseFault .bufferBounds 0x08000900#32 measurement) = .next t :=
  ⟨faulted_inv, ⟨_, rfl⟩⟩

theorem witness_FaultEntryWritesOnlyTheFaultRegisters :
    State.reset.fcause = 0 ∧ (raiseFault .rangeError 0x8DAEFFA9#32 State.reset).fcause ≠ 0 ∧ (2 : Nat) < 3 := by decide

theorem witness_PackWritesTheGroupOfItsWord :
    (2 : Nat) < groupAddr 1 ∧ groupAddr 1 + 3 ≤ 6 ∧ ¬ (3 < groupAddr 1 ∨ groupAddr 1 + 3 ≤ 3) := by decide

theorem witness_UnpackReadsTheFirstGroups :
    (1 : RegIdx).val < (2#2).toNat ∧ (2#2).toNat ≤ (2 : RegIdx).val ∧ (2 : RegIdx).val < (3#2).toNat := by decide

theorem witness_PackThenUnpackReturnsTheWord : (2 : RegIdx).val < (3#2).toNat ∧ (0 : RegIdx).val < (1#2).toNat := by decide

theorem witness_UnpackDetectsOneChangedByte :
    (0 : RegIdx).val < (1#2).toNat ∧ (2 : Nat) < 3
    ∧ crc8 (measurement.readByte 0 ++ measurement.readByte 1) = measurement.readByte 2
    ∧ (0xF5#8 : Byte) ≠ measurement.readByte 1 ∧ (0x32#8 : Byte) ≠ measurement.readByte 2
    ∧ (0x00#8 : Byte) ≠ measurement.readByte 0 := by decide +kernel

theorem witness_OffsetEncoderRoundsToNearest :
    (0xAEFFA8#24).toNat < 11468713 ∧ 11468713 ≤ (0xAEFFA9#24).toNat := by decide

theorem witness_OffsetEncodeThenDecodeKeepsTheBias :
    (0xAEFFA8#24).toNat < 11468713 ∧ State.reset.readW 1 = 0 := by decide

theorem witness_PressureEncoderTruncatesAndSaysSo :
    (0x63FFFF#24).toNat < 6553600 ∧ 6553600 ≤ (0x640000#24).toNat ∧ 100 ∣ (100#24).toNat ∧ ¬ 100 ∣ (99#24).toNat := by decide

theorem witness_RecalibrationResultOrFailure :
    (withW 2 0xFFFF#16).readW 2 = 0xFFFF#16 ∧ (withW 2 0xFFFE#16).readW 2 ≠ 0xFFFF#16 := by decide

theorem witness_DataReadyTestsTheLowElevenBits :
    ((withW 0 0x0400#16).readW 0).getLsbD 10 = true ∧ ∀ k, k < 11 → ((withW 0 0x0800#16).readW 0).getLsbD k = false := by decide

theorem witness_NoCommandReadsAFlag : ∃ t, exec (.frc 0) (measurement.setCk 1 true) = .next t := ⟨_, rfl⟩

theorem witness_StoreByteWritesItsByteOnly : (8#4).toNat ≤ 8 ∧ 9 ≤ (9#4).toNat ∧ (7 : Nat) ≠ (8#4).toNat := by decide

theorem witness_LoadByteReadsItsByte : (8#4).toNat ≤ 8 ∧ 9 ≤ (9#4).toNat := by decide

theorem witness_MemReadReturnsWhatMemWriteWrote : (5 : Nat) < 6 ∨ 6 + 3 ≤ 5 := by decide

theorem witness_CommandsWriteOnlyWhatTheTableLists :
    (∃ t, exec (.pack 2) measurement = .next t) ∧ faultOfWord (encode (.pack 2)) = none
    ∧ (∃ t, exec (.ldb 9#4) measurement = .next t) ∧ faultOfWord (encode (.ldb 9#4)) = some .bufferBounds :=
  ⟨⟨_, rfl⟩, by decide, ⟨_, rfl⟩, by decide⟩

theorem witness_CommandsReadOnlyWhatTheTableLists :
    (∀ l, readsPlace (.crc8 1) l = true →
      (withW 1 0xBEEF#16).at l = ((withW 1 0xBEEF#16).writeW 2 0x1234#16).at l)
    ∧ (∃ t, exec (.crc8 1) (withW 1 0xBEEF#16) = .next t)
    ∧ ∃ t', exec (.crc8 1) ((withW 1 0xBEEF#16).writeW 2 0x1234#16) = .next t' := by
  refine ⟨fun l hl => ?_, ⟨_, rfl⟩, ⟨_, rfl⟩⟩
  cases l <;> simp [readsPlace] at hl
  rename_i i; subst hl; decide

theorem witness_ChecksumFlagFollowsTheLastWriterOfItsWord :
    (∃ t, exec (.unpack 1#2) measurement = .next t) ∧ faultOfWord (encode (.unpack 1#2)) = none
    ∧ writesPlace (.unpack 1#2) (.w 0) = true ∧ writesPlace (.unpack 1#2) (.w 1) = false :=
  ⟨⟨_, rfl⟩, by decide, by decide, by decide⟩

theorem witness_CalibrationFlagIsWrittenByFrcOnly :
    (∀ r, (Instr.prese 0 100#24) ≠ .frc r) ∧ ∃ t, exec (.prese 0 100#24) measurement = .next t :=
  ⟨(by intro r h; cases h), ⟨_, rfl⟩⟩

theorem witness_InexactFlagIsWrittenByPreseOnly :
    (0x63FFFF#24).toNat < 6553600 ∧ 6553600 ≤ (0x640000#24).toNat
    ∧ (∀ r p, (Instr.frc 0) ≠ .prese r p) ∧ ∃ t, exec (.frc 0) measurement = .next t :=
  ⟨by decide, by decide, (by intro r p h; cases h), ⟨_, rfl⟩⟩

theorem witness_RepeatingACommandChangesNothingMore :
    measurement.buf.wf ∧ ∃ t, exec (.pack 1) measurement = .next t := ⟨by decide, ⟨_, rfl⟩⟩

/-- The pins of a clock edge at which the host does nothing. -/
def idlePins : Pins := ⟨false, false, 0#32⟩

/-- The pins of a clock edge at which the host offers PACK w0. -/
def packPins : Pins := ⟨false, true, 0x40000000#32⟩

theorem witness_ClockedCommandEqualsItsAtomicStep :
    ClockedBlock.reset.busy = none ∧ packPins.rst = false ∧ packPins.cmdValid = true
    ∧ (∀ q ∈ List.replicate (1 + Config.extraCycles packPins.cmd) idlePins, q.rst = false)
    ∧ (List.replicate (1 + Config.extraCycles packPins.cmd) idlePins).length = 1 + Config.extraCycles packPins.cmd
    ∧ ∃ t, runCommand packPins.cmd ClockedBlock.reset.state = .next t :=
  ⟨rfl, rfl, rfl, fun q hq => by rw [List.eq_of_mem_replicate hq]; rfl, List.length_replicate, ⟨_, rfl⟩⟩

theorem witness_PortsShowTheOldStateUntilCompletion :
    ClockedBlock.reset.busy = none ∧ packPins.rst = false ∧ packPins.cmdValid = true
    ∧ (∀ q ∈ List.replicate (Config.extraCycles packPins.cmd) idlePins, q.rst = false)
    ∧ (List.replicate (Config.extraCycles packPins.cmd) idlePins).length ≤ Config.extraCycles packPins.cmd :=
  ⟨rfl, rfl, rfl, fun q hq => by rw [List.eq_of_mem_replicate hq]; rfl, by rw [List.length_replicate]⟩

theorem witness_ResetAbandonsTheCommandInProgress :
    ClockedBlock.reset.busy = none ∧ packPins.rst = false ∧ packPins.cmdValid = true
    ∧ (∀ q ∈ ([] : List Pins), q.rst = false)
    ∧ ([] : List Pins).length ≤ Config.extraCycles packPins.cmd ∧ (⟨true, false, 0#32⟩ : Pins).rst = true :=
  ⟨rfl, rfl, rfl, by simp, by simp, rfl⟩

theorem witness_AssemblerRefusesExactlyWhatDoesNotFit :
    Stmt.wellFormed (.stb 15 255) = true ∧ assemble (.stb 15 255) = some [0x08000FFF#32]
    ∧ Stmt.wellFormed (.stb 16 255) = false := by decide

theorem witness_PseudoInstructionsStandForTheirExpansions :
    (2 : Nat) < 3 ∧ (255 : Nat) < 256 ∧ (0 : Nat) < 256
    ∧ assemble (.stg 2 255 255 0) = some [0x080006FF#32, 0x080007FF#32, 0x08000800#32] := by decide

end Sys2Proof.Tests
end

section
/-! The statements of 00_scope.md: MemRead after MemWrite (R8), and the step as a total function of state and command word
that takes one input of the host (R10). -/

namespace Sys2Proof.Machine

/-! ### MemRead after MemWrite (R8) -/

/-- MemRead depends on the bytes it addresses only. -/
theorem Memory.memRead_congr {m m' : Memory} {a n : Nat} (h : ∀ k, k < n → m.read (a + k) = m'.read (a + k)) :
    m.memRead a n = m'.memRead a n := by
  induction n with
  | zero => rfl
  | succ n ih =>
    rw [Memory.memRead_succ, Memory.memRead_succ, ih (fun k hk => h k (by omega)), h n (by omega)]

/-- A byte written above the addressed bytes does not change what MemRead gives. -/
theorem Memory.memRead_write_above (m : Memory) (a n : Nat) (v : Byte) :
    (m.write (a + n) v).memRead a n = m.memRead a n :=
  Memory.memRead_congr (fun _ hk => Memory.read_write_other _ _ (by omega))

/-- The split of MemWrite (leading bytes, last byte) is undone by the concatenation of MemRead. -/
theorem leadingBytes_append_lastByte {n : Nat} (v : BitVec (8 * (n + 1))) :
    v.extractLsb' 8 (8 * n) ++ v.setWidth 8 = v := by
  refine BitVec.eq_of_getLsbD_eq (fun i hi => ?_)
  rw [BitVec.getLsbD_append]
  split
  · next h => simp [h]
  · next h =>
    have hlow : i - 8 < 8 * n := by omega
    have hback : 8 + (i - 8) = i := by omega
    rw [BitVec.getLsbD_extractLsb', hback]
    simp [hlow]

theorem Memory.memRead_memWrite (m : Memory) (a n : Nat) (v : BitVec (8 * n)) :
    (m.memWrite a n v).memRead a n = v := by
  induction n with
  | zero => exact BitVec.eq_of_getLsbD_eq (fun _ hi => absurd hi (Nat.not_lt_zero _))
  | succ n ih =>
    rw [Memory.memWrite_succ, Memory.memRead_succ, Memory.memRead_write_above, ih, Memory.read_write_same]
    exact leadingBytes_append_lastByte v

/-- Settles O42: by induction on the width, since the last byte is written above the leading ones. -/
theorem memReadReturnsWhatMemWriteWrote : Obligations.MemReadReturnsWhatMemWriteWrote :=
  fun m a n v => ⟨Memory.memRead_memWrite m a n v, Memory.read_memWrite_other m a n v⟩

/-! ### Every command completes, whatever inputs are pending (R10) -/

/-- UNPACK's iterations neither read nor write the pending inputs. -/
theorem unpackGroups_withInputs (l : List RegIdx) (s : State) (r : List HostInput) :
    l.foldl unpackGroup { s with inputs := r } = { l.foldl unpackGroup s with inputs := r } := by
  induction l generalizing s with
  | nil => rfl
  | cons i l ih => exact ih (unpackGroup s i)

/-- Every command answers a next state, which does not depend on the pending inputs and keeps them. -/
theorem exec_withInputs (i : Instr) (s : State) :
    ∃ t : State, ∀ r, exec i { s with inputs := r } = .next { t with inputs := r } := by
  cases i with
  | nop => exact ⟨s, fun _ => rfl⟩
  | ldw i v => exact ⟨s.loadW i v, fun _ => rfl⟩
  | stb a d =>
    rcases Nat.lt_or_ge a.toNat 9 with h | h
    · exact ⟨{ s with buf := s.buf.write a.toNat d }, fun _ => execStb_exists h d _⟩
    · exact ⟨raiseFault .bufferBounds (encode (.stb a d)) s, fun _ => execStb_absent h d _⟩
  | ldb a =>
    rcases Nat.lt_or_ge a.toNat 9 with h | h
    · exact ⟨{ s with dout := s.readByte a.toNat }, fun _ => execLdb_exists h _⟩
    · exact ⟨raiseFault .bufferBounds (encode (.ldb a)) s, fun _ => execLdb_absent h _⟩
  | crc8 i => exact ⟨{ s with acc := crc8 (s.readW i) }, fun _ => rfl⟩
  | pack i => exact ⟨{ s with buf := s.buf.memWrite (groupAddr i) 3 (groupOf (s.readW i)) }, fun _ => rfl⟩
  | unpack n => exact ⟨(groupsBelow n).foldl unpackGroup s,
      fun r => congrArg _ (unpackGroups_withInputs (groupsBelow n) s r)⟩
  | co2 i => exact ⟨{ s with res := (s.readW i).setWidth 32 }, fun _ => rfl⟩
  | temp i => exact ⟨{ s with res := BitVec.ofInt 32 (tempQ16 (s.readW i)) }, fun _ => rfl⟩
  | rh i => exact ⟨{ s with res := BitVec.ofNat 32 (humidityQ16 (s.readW i)) }, fun _ => rfl⟩
  | tofse i x =>
    rcases Nat.lt_or_ge 65535 (offsetQuotient x) with h | h
    · exact ⟨raiseFault .rangeError (encode (.tofse i x)) s, fun _ => execTofse_tooLarge h _⟩
    · exact ⟨s.loadW i (BitVec.ofNat 16 (offsetQuotient x)), fun _ => execTofse_fits h _⟩
  | prese i p =>
    rcases Nat.lt_or_ge 65535 (pressureQuotient p) with h | h
    · exact ⟨raiseFault .rangeError (encode (.prese i p)) s, fun _ => execPrese_tooLarge h _⟩
    · exact ⟨(s.loadW i (BitVec.ofNat 16 (pressureQuotient p))).setInex (inexactPressure p),
        fun _ => execPrese_fits h _⟩
  | frc i =>
    by_cases h : s.readW i = 0xFFFF#16
    · exact ⟨s.setCalf true, fun r => execFrc_failed (s := { s with inputs := r }) h⟩
    · exact ⟨{ s.setCalf false with res := BitVec.ofInt 32 (correction (s.readW i)) },
        fun r => execFrc_ok (s := { s with inputs := r }) h⟩
  | ser => exact ⟨{ s with ser := s.readW 0 ++ s.readW 1 ++ s.readW 2 }, fun _ => rfl⟩
  | drdy i => exact ⟨{ s with res := if dataReady (s.readW i) then 1#32 else 0#32 }, fun _ => rfl⟩

theorem runCommand_command {c : Cmd} {i : Instr} (h : decode c = .command i) (s : State) :
    runCommand c s = exec i s := by
  rw [runCommand, h]

theorem runCommand_illegal {c : Cmd} {why : Illegal} (h : decode c = .illegal why) (s : State) :
    runCommand c s = .next (raiseFault .illegalCommand c s) := by
  rw [runCommand, h]

/-- Every command word, legal or not, answers a next state, which does not depend on the pending inputs and keeps them. -/
theorem runCommand_withInputs (c : Cmd) (s : State) :
    ∃ t : State, ∀ r, runCommand c { s with inputs := r } = .next { t with inputs := r } := by
  cases h : decode c with
  | command i => simpa only [runCommand_command h] using exec_withInputs i s
  | illegal why => exact ⟨raiseFault .illegalCommand c s, fun _ => runCommand_illegal h _⟩

theorem runCommands_cons {c : Cmd} {s t : State} (h : runCommand c s = .next t) (cs : List Cmd) :
    runCommands (c :: cs) s = runCommands cs t := by
  rw [runCommands, h]

/-! ### The step (R73, R176) -/

theorem step_of_no_input {s : State} (h : s.inputs = []) : step s = .next s := by
  rw [step, takeInput, h]

theorem step_of_input {s : State} {e : HostInput} {rest : List HostInput} (h : s.inputs = e :: rest) :
    step s = onInput e { s with inputs := rest } := by
  rw [step, takeInput, h]

theorem onInput_keeps_inputs (e : HostInput) (s : State) : ∃ t, onInput e s = .next t ∧ t.inputs = s.inputs := by
  cases e with
  | command c =>
    obtain ⟨t, ht⟩ := runCommand_withInputs c s
    exact ⟨_, ht s.inputs, rfl⟩
  | reset => exact ⟨hostReset s, rfl, rfl⟩

/-- Settles O6: the step takes the word, and the word's decoding selects the command's rule. -/
theorem stepRunsTheDecodedCommand : Obligations.StepRunsTheDecodedCommand :=
  fun _ _ _ _ hs hc => (step_of_input hs).trans (runCommand_command hc _)

/-- Settles O10: by cases on whether an input is pending; each input completes and keeps the inputs behind it. -/
theorem stepCompletesAndTakesOneInput : Obligations.StepCompletesAndTakesOneInput := by
  intro s
  cases h : s.inputs with
  | nil => exact ⟨s, step_of_no_input h, h⟩
  | cons e rest => rw [step_of_input h]; exact onInput_keeps_inputs e _

/-! ### Runs (R10, R20) -/

/-- One more step of a machine behind the host's interface, when that step completes. -/
theorem hostRun_succ (M : Host.Core) (s t : M.State) (h : M.step s = .next t) (k : Nat) :
    M.run (k + 1) s = M.run k t := by
  rw [Host.Core.run, h]

theorem core_run_succ {s t : State} (h : step s = .next t) (k : Nat) :
    Host.Core.run core (k + 1) s = Host.Core.run core k t :=
  hostRun_succ core s t h k

/-- Settles O11: by induction on the words. The first step and the first command lead to the same state but for the pending
inputs, because a command's result does not depend on them. -/
theorem runPerformsTheCommandsInOrder : Obligations.RunPerformsTheCommandsInOrder := by
  intro cs
  induction cs with
  | nil => exact fun s rest => ⟨{ s with inputs := rest }, rfl, rfl, rfl⟩
  | cons c cs ih =>
    intro s rest
    obtain ⟨t, ht⟩ := runCommand_withInputs c s
    have hstep : step { s with inputs := .command c :: (cs.map .command ++ rest) }
        = .next { t with inputs := cs.map .command ++ rest } := by
      rw [step_of_input rfl]; exact ht _
    obtain ⟨u, hrun, hcmds, hin⟩ := ih t rest
    exact ⟨u, (core_run_succ hstep cs.length).trans hrun, (runCommands_cons (ht rest) cs).trans hcmds, hin⟩

end Sys2Proof.Machine
end

section
/-! Which command words fault: a word that the decoder calls illegal selects no row of the opcode table, and the fault of
a legal word is that of its command's operands (R72, R75, 60_exceptions.md section 1). -/

namespace Sys2Proof.Machine

/-! ### The legal words are those that decode (R72, R75) -/

theorem encodesIntoRow (i : Instr) : Laws.EncodesIntoRow.Statement i := by
  cases i with
  | nop => exact Laws.EncodesIntoRow.nop
  | ldw i v => exact Laws.EncodesIntoRow.ldw i v
  | stb a d => exact Laws.EncodesIntoRow.stb a d
  | ldb a => exact Laws.EncodesIntoRow.ldb a
  | crc8 i => exact Laws.EncodesIntoRow.crc8 i
  | pack i => exact Laws.EncodesIntoRow.pack i
  | unpack n => exact Laws.EncodesIntoRow.unpack n
  | co2 i => exact Laws.EncodesIntoRow.co2 i
  | temp i => exact Laws.EncodesIntoRow.temp i
  | rh i => exact Laws.EncodesIntoRow.rh i
  | tofse i x => exact Laws.EncodesIntoRow.tofse i x
  | prese i p => exact Laws.EncodesIntoRow.prese i p
  | frc i => exact Laws.EncodesIntoRow.frc i
  | ser => exact Laws.EncodesIntoRow.ser
  | drdy i => exact Laws.EncodesIntoRow.drdy i

theorem wellFormedWord_encode (i : Instr) : wellFormedWord (encode i) = true := by
  obtain ⟨r, hr, -, hsel⟩ := encodesIntoRow i
  exact List.any_eq_true.mpr ⟨r, hr, hsel⟩

/-- A field that a row's mask keeps whole holds what the row's pattern holds there. -/
theorem field_of_masked {c mask pattern : Cmd} (h : c &&& mask = pattern) (lo w : Nat)
    (hm : mask.extractLsb' lo w = BitVec.allOnes w) : c.extractLsb' lo w = pattern.extractLsb' lo w := by
  rw [← h, BitVec.extractLsb'_and, hm, BitVec.and_allOnes]

theorem zeroChecked_ne_illegal {w : Nat} {m : BitVec w} (h : m = 0) (i : Instr) (why : Illegal) :
    zeroChecked m i ≠ .illegal why :=
  fun hi => zeroChecked_illegal.mp ⟨why, hi⟩ h

theorem regChecked_ne_illegal {w : Nat} {c : Cmd} {m : BitVec w} (hi : idxField c ≠ 3#2) (h : m = 0)
    (mk : RegIdx → Instr) (why : Illegal) : regChecked c m mk ≠ .illegal why :=
  fun hv => (regChecked_illegal.mp ⟨why, hv⟩).elim hi (· h)

/-- The exclusion "IDX not 3" of a row (R72) is about the IDX field. -/
theorem idxField_ne_three {c : Cmd} (h : (c &&& 0x03000000#32 == 0x03000000#32) = false) : idxField c ≠ 3#2 := by
  intro hi
  have hword : c &&& 0x03000000#32 = 0x03000000#32 := by
    rw [← wordOf_fields c, Laws.EncodesIntoRow.idxMask_eq, wordOf_and, hi]
    simp
  simp [hword] at h

/-- A word that selects a row of the opcode table is not illegal. Row by row: the opcode is the pattern's, so the decoder
takes that row's arm, and the fields that the arm requires to be zero are zero in the pattern. -/
theorem decode_ne_illegal_of_selects {r : OpcodeRow} (hr : r ∈ opcodeTable) {c : Cmd} (hsel : r.selects c = true)
    (why : Illegal) : decode c ≠ .illegal why := by
  have hmask : c &&& r.mask = r.pattern := by
    simp only [OpcodeRow.selects, Bool.and_eq_true, beq_iff_eq] at hsel
    exact hsel.1
  have hreg : r.format.namesRegister = true → idxField c ≠ 3#2 := fun hn =>
    idxField_ne_three (by simpa [OpcodeRow.selects, hn, hmask] using hsel)
  have hop : opField c = r.pattern.extractLsb' 26 6 :=
    field_of_masked hmask 26 6 ((by decide : ∀ r ∈ opcodeTable, r.mask.extractLsb' 26 6 = BitVec.allOnes 6) r hr)
  have hzero (lo w : Nat) (hm : r.mask.extractLsb' lo w = BitVec.allOnes w) (hp : r.pattern.extractLsb' lo w = 0#w) :
      c.extractLsb' lo w = 0 := (field_of_masked hmask lo w hm).trans hp
  unfold decode
  rw [hop]
  clear hsel hmask hop
  simp only [opcodeTable, List.mem_cons, List.not_mem_nil, or_false] at hr
  rcases hr with rfl | rfl | rfl | rfl | rfl | rfl | rfl | rfl | rfl | rfl | rfl | rfl | rfl | rfl | rfl
  · exact zeroChecked_ne_illegal (hzero 0 26 rfl rfl) _ _
  · exact regChecked_ne_illegal (hreg rfl) (hzero 16 8 rfl rfl) _ _
  · exact zeroChecked_ne_illegal (hzero 12 14 rfl rfl) _ _
  · exact zeroChecked_ne_illegal (by rw [hzero 12 14 rfl rfl, hzero 0 8 rfl rfl]; rfl) _ _
  · exact regChecked_ne_illegal (hreg rfl) (hzero 0 24 rfl rfl) _ _
  · exact regChecked_ne_illegal (hreg rfl) (hzero 0 24 rfl rfl) _ _
  · exact zeroChecked_ne_illegal (hzero 0 24 rfl rfl) _ _
  · exact regChecked_ne_illegal (hreg rfl) (hzero 0 24 rfl rfl) _ _
  · exact regChecked_ne_illegal (hreg rfl) (hzero 0 24 rfl rfl) _ _
  · exact regChecked_ne_illegal (hreg rfl) (hzero 0 24 rfl rfl) _ _
  · exact regChecked_ne_illegal (hreg rfl) rfl _ _
  · exact regChecked_ne_illegal (hreg rfl) rfl _ _
  · exact regChecked_ne_illegal (hreg rfl) (hzero 0 24 rfl rfl) _ _
  · exact zeroChecked_ne_illegal (hzero 0 26 rfl rfl) _ _
  · exact regChecked_ne_illegal (hreg rfl) (hzero 0 24 rfl rfl) _ _

theorem wellFormedWord_of_illegal {c : Cmd} {why : Illegal} (h : decode c = .illegal why) : wellFormedWord c = false := by
  by_contra hwf
  obtain ⟨r, hr, hsel⟩ := List.any_eq_true.mp (Bool.eq_true_of_not_eq_false hwf)
  exact decode_ne_illegal_of_selects hr hsel why h

/-! ### The fault of a word (60_exceptions.md section 1) -/

theorem faultOfWord_illegal {c : Cmd} {why : Illegal} (h : decode c = .illegal why) :
    faultOfWord c = some .illegalCommand := by
  simp [faultOfWord, wellFormedWord_of_illegal h]

@[simp] theorem addrField_wordOf (op : BitVec 6) (idx : BitVec 2) (hi : BitVec 12) (a : BitVec 4) (lo : BitVec 8) :
    addrField (wordOf op idx (hi ++ a ++ lo)) = a := by
  refine BitVec.eq_of_toNat_eq ?_
  rw [addrField, toNat_field, toNat_wordOf, toNat_append_add, toNat_append_add]
  omega

/-- The fault of a legal word, from its fields. -/
theorem faultOfWord_wellFormed {c : Cmd} (h : wellFormedWord c = true) :
    faultOfWord c =
      if (opField c = 0x02#6 ∨ opField c = 0x03#6) ∧ 9 ≤ (addrField c).toNat then some .bufferBounds
      else if (opField c = 0x23#6 ∧ 11468713 ≤ (imm24Field c).toNat)
          ∨ (opField c = 0x24#6 ∧ 6553600 ≤ (imm24Field c).toNat) then some .rangeError
      else none := by
  have haddr : (addrField c).toNat = c.toNat / 2 ^ 8 % 2 ^ 4 := toNat_field c 8 4
  simp only [faultOfWord, h, ← toNat_opField, ← toNat_imm24Field, ← haddr, BitVec.toNat_eq, Bool.not_true,
    Bool.false_eq_true, if_false]
  rfl

/-- The fault of a command, by its operands: STB and LDB at an address that does not exist (R151), and the encoders on an
operand whose code does not fit a word (R152). `faultOfWord_encode` ties it to the table of 60_exceptions.md section 1. -/
def faultOfInstr : Instr → Option FaultKind
  | .stb a _ | .ldb a => if 9 ≤ a.toNat then some .bufferBounds else none
  | .tofse _ x => if 11468713 ≤ x.toNat then some .rangeError else none
  | .prese _ p => if 6553600 ≤ p.toNat then some .rangeError else none
  | _ => none

theorem faultOfWord_encode (i : Instr) : faultOfWord (encode i) = faultOfInstr i := by
  rw [faultOfWord_wellFormed (wellFormedWord_encode i)]
  cases i <;> simp [encode, faultOfInstr]

end Sys2Proof.Machine
end

section
/-! What a command leaves, said once: a fault entry (R153), or its effect, which is on the places that the table of R38
lists as written. -/

namespace Sys2Proof.Machine

/-! ### The two ways a command ends -/

/-- The state that a command leaves when it does not fault. `exec_of_no_fault` ties it to the model. -/
def effect (i : Instr) (s : State) : State :=
  match i with
  | .nop => s
  | .ldw i v => s.loadW i v
  | .stb a d => { s with buf := s.buf.write a.toNat d }
  | .ldb a => { s with dout := s.readByte a.toNat }
  | .crc8 i => { s with acc := crc8 (s.readW i) }
  | .pack i => { s with buf := s.buf.memWrite (groupAddr i) 3 (groupOf (s.readW i)) }
  | .unpack n => (groupsBelow n).foldl unpackGroup s
  | .co2 i => { s with res := (s.readW i).setWidth 32 }
  | .temp i => { s with res := BitVec.ofInt 32 (tempQ16 (s.readW i)) }
  | .rh i => { s with res := BitVec.ofNat 32 (humidityQ16 (s.readW i)) }
  | .tofse i x => s.loadW i (BitVec.ofNat 16 (offsetQuotient x))
  | .prese i p => (s.loadW i (BitVec.ofNat 16 (pressureQuotient p))).setInex (inexactPressure p)
  | .frc i =>
    if s.readW i = 0xFFFF#16 then s.setCalf true
    else { s.setCalf false with res := BitVec.ofInt 32 (correction (s.readW i)) }
  | .ser => { s with ser := s.readW 0 ++ s.readW 1 ++ s.readW 2 }
  | .drdy i => { s with res := if dataReady (s.readW i) then 1#32 else 0#32 }

theorem exec_of_no_fault {i : Instr} (h : faultOfWord (encode i) = none) (s : State) :
    exec i s = .next (effect i s) := by
  rw [faultOfWord_encode] at h
  cases i with
  | stb a d => exact execStb_exists (by simpa [faultOfInstr] using h) d s
  | ldb a => exact execLdb_exists (by simpa [faultOfInstr] using h) s
  | tofse i x => exact execTofse_fits ((offsetQuotient_fits x).mpr (by simpa [faultOfInstr] using h)) s
  | prese i p => exact execPrese_fits ((pressureQuotient_fits p).mpr (by simpa [faultOfInstr] using h)) s
  | frc i =>
    by_cases hw : s.readW i = 0xFFFF#16
    · exact (execFrc_failed hw).trans (by simp [effect, hw])
    · exact (execFrc_ok hw).trans (by simp [effect, hw])
  | _ => rfl

theorem offsetQuotient_tooLarge {x : BitVec 24} (h : 11468713 ≤ x.toNat) : 65535 < offsetQuotient x :=
  Nat.lt_of_not_ge (mt (offsetQuotient_fits x).mp (Nat.not_lt.mpr h))

theorem pressureQuotient_tooLarge {p : BitVec 24} (h : 6553600 ≤ p.toNat) : 65535 < pressureQuotient p :=
  Nat.lt_of_not_ge (mt (pressureQuotient_fits p).mp (Nat.not_lt.mpr h))

theorem exec_of_fault {i : Instr} {k : FaultKind} (h : faultOfWord (encode i) = some k) (s : State) :
    exec i s = .next (raiseFault k (encode i) s) := by
  rw [faultOfWord_encode] at h
  cases i with
  | stb a d =>
    obtain ⟨ha, rfl⟩ : 9 ≤ a.toNat ∧ .bufferBounds = k := by simpa [faultOfInstr] using h
    exact execStb_absent ha d s
  | ldb a =>
    obtain ⟨ha, rfl⟩ : 9 ≤ a.toNat ∧ .bufferBounds = k := by simpa [faultOfInstr] using h
    exact execLdb_absent ha s
  | tofse i x =>
    obtain ⟨hx, rfl⟩ : 11468713 ≤ x.toNat ∧ .rangeError = k := by simpa [faultOfInstr] using h
    exact execTofse_tooLarge (offsetQuotient_tooLarge hx) s
  | prese i p =>
    obtain ⟨hp, rfl⟩ : 6553600 ≤ p.toNat ∧ .rangeError = k := by simpa [faultOfInstr] using h
    exact execPrese_tooLarge (pressureQuotient_tooLarge hp) s
  | _ => simp [faultOfInstr] at h

/-- A command takes its fault, or does not fault and has its effect. -/
theorem exec_cases {i : Instr} {s t : State} (h : exec i s = .next t) :
    (∃ k, faultOfWord (encode i) = some k ∧ t = raiseFault k (encode i) s)
    ∨ (faultOfWord (encode i) = none ∧ t = effect i s) := by
  cases hf : faultOfWord (encode i) with
  | some k =>
    rw [exec_of_fault hf] at h
    exact .inl ⟨k, rfl, (Host.Outcome.next.inj h).symm⟩
  | none =>
    rw [exec_of_no_fault hf] at h
    exact .inr ⟨rfl, (Host.Outcome.next.inj h).symm⟩

/-- A command word raises a fault that is its own, or its command has its effect. -/
theorem runCommand_cases {c : Cmd} {s t : State} (h : runCommand c s = .next t) :
    (∃ k c', faultOfWord c' = some k ∧ t = raiseFault k c' s)
    ∨ (∃ i, faultOfWord (encode i) = none ∧ t = effect i s) := by
  cases hd : decode c with
  | illegal why =>
    rw [runCommand_illegal hd] at h
    exact .inl ⟨.illegalCommand, c, faultOfWord_illegal hd, (Host.Outcome.next.inj h).symm⟩
  | command i =>
    rw [runCommand_command hd] at h
    rcases exec_cases h with ⟨k, hk, rfl⟩ | ⟨hn, rfl⟩
    · exact .inl ⟨k, encode i, hk, rfl⟩
    · exact .inr ⟨i, hn, rfl⟩

/-! ### Which places each update of the state leaves (R38) -/

theorem at_setAcc {l : Loc} (h : l ≠ .acc) (s : State) (v : Byte) : { s with acc := v }.at l = s.at l := by
  cases l with
  | acc => exact absurd rfl h
  | _ => rfl

theorem at_setRes {l : Loc} (h : l ≠ .res) (s : State) (v : BitVec 32) : { s with res := v }.at l = s.at l := by
  cases l with
  | res => exact absurd rfl h
  | _ => rfl

theorem at_setSer {l : Loc} (h : l ≠ .ser) (s : State) (v : BitVec 48) : { s with ser := v }.at l = s.at l := by
  cases l with
  | ser => exact absurd rfl h
  | _ => rfl

theorem at_setDout {l : Loc} (h : l ≠ .dout) (s : State) (v : Byte) : { s with dout := v }.at l = s.at l := by
  cases l with
  | dout => exact absurd rfl h
  | _ => rfl

theorem at_setBuf {l : Loc} {s : State} {m : Memory} (h : ∀ a, l = .buf a → m.read a = s.readByte a) :
    { s with buf := m }.at l = s.at l := by
  cases l with
  | buf a => exact congrArg BitVec.toNat (h a rfl)
  | _ => rfl

theorem at_setCalf {l : Loc} (h : l ≠ .calf) (s : State) (b : Bool) : (s.setCalf b).at l = s.at l := by
  cases l with
  | calf => exact absurd rfl h
  | ck j => exact congrArg Bool.toNat (ck_setCalf s j b)
  | inex => exact congrArg Bool.toNat (inex_setCalf s b)
  | _ => rfl

theorem at_setInex {l : Loc} (h : l ≠ .inex) (s : State) (b : Bool) : (s.setInex b).at l = s.at l := by
  cases l with
  | inex => exact absurd rfl h
  | ck j => exact congrArg Bool.toNat (ck_setInex s j b)
  | calf => exact congrArg Bool.toNat (calf_setInex s b)
  | _ => rfl

theorem at_loadW {l : Loc} {i : RegIdx} (hw : l ≠ .w i) (hck : l ≠ .ck i) (s : State) (v : Word) :
    (s.loadW i v).at l = s.at l := by
  cases l with
  | w j => exact congrArg BitVec.toNat ((readW_loadW s i j v).trans (if_neg (mt (congrArg Loc.w) hw)))
  | ck j => exact congrArg Bool.toNat ((ck_loadW s i j v).trans (if_neg (mt (congrArg Loc.ck) hck)))
  | calf => exact congrArg Bool.toNat (calf_loadW s i v)
  | inex => exact congrArg Bool.toNat (inex_loadW s i v)
  | _ => rfl

theorem at_unpackGroups {l : Loc} {gs : List RegIdx} (hw : ∀ j ∈ gs, l ≠ .w j) (hck : ∀ j ∈ gs, l ≠ .ck j) (s : State) :
    (gs.foldl unpackGroup s).at l = s.at l := by
  induction gs generalizing s with
  | nil => rfl
  | cons j gs ih =>
    rw [List.foldl_cons,
      ih (fun i hi => hw i (List.mem_cons_of_mem j hi)) (fun i hi => hck i (List.mem_cons_of_mem j hi))]
    have hwj := hw j List.mem_cons_self
    have hckj := hck j List.mem_cons_self
    cases l with
    | w i => exact congrArg BitVec.toNat ((readW_unpackGroup s j i).trans (if_neg (mt (congrArg Loc.w) hwj)))
    | ck i => exact congrArg Bool.toNat ((ck_unpackGroup s j i).trans (if_neg (mt (congrArg Loc.ck) hckj)))
    | calf => simp [State.at, unpackGroup]
    | inex => simp [State.at, unpackGroup]
    | _ => rfl

theorem at_raiseFault {l : Loc} (h : l.isFaultRegister = false) (k : FaultKind) (c : Cmd) (s : State) :
    (raiseFault k c s).at l = s.at l := by
  cases l with
  | fault => cases h
  | fcause => cases h
  | fcmd => cases h
  | _ => rfl

/-! ### The rows of the column "writes" whose entry depends on the operands (R38) -/

@[simp] theorem writesPlace_ldw_w (i j : RegIdx) (v : BitVec 16) :
    writesPlace (.ldw i v) (.w j) = decide (i = j) := rfl
@[simp] theorem writesPlace_ldw_ck (i j : RegIdx) (v : BitVec 16) :
    writesPlace (.ldw i v) (.ck j) = decide (i = j) := rfl
@[simp] theorem writesPlace_stb_buf (a : BitVec 4) (d : BitVec 8) (b : Nat) :
    writesPlace (.stb a d) (.buf b) = decide (a.toNat = b) := rfl
@[simp] theorem writesPlace_pack_buf (i : RegIdx) (b : Nat) :
    writesPlace (.pack i) (.buf b) = (decide (3 * i.val ≤ b) && decide (b < 3 * i.val + 3)) := rfl
@[simp] theorem writesPlace_unpack_w (n : BitVec 2) (j : RegIdx) :
    writesPlace (.unpack n) (.w j) = decide (j.val < n.toNat) := rfl
@[simp] theorem writesPlace_unpack_ck (n : BitVec 2) (j : RegIdx) :
    writesPlace (.unpack n) (.ck j) = decide (j.val < n.toNat) := rfl
@[simp] theorem writesPlace_tofse_w (i j : RegIdx) (x : BitVec 24) :
    writesPlace (.tofse i x) (.w j) = decide (i = j) := rfl
@[simp] theorem writesPlace_tofse_ck (i j : RegIdx) (x : BitVec 24) :
    writesPlace (.tofse i x) (.ck j) = decide (i = j) := rfl
@[simp] theorem writesPlace_prese_w (i j : RegIdx) (p : BitVec 24) :
    writesPlace (.prese i p) (.w j) = decide (i = j) := rfl
@[simp] theorem writesPlace_prese_ck (i j : RegIdx) (p : BitVec 24) :
    writesPlace (.prese i p) (.ck j) = decide (i = j) := rfl

/-! ### A command's effect is on the places that the table lists as written (R38) -/

theorem ne_of_not_written {i : Instr} {l x : Loc} (hl : writesPlace i l = false) (hx : writesPlace i x = true) : l ≠ x :=
  fun h => by rw [h, hx] at hl; cases hl

theorem effect_at_of_not_written {i : Instr} {l : Loc} (h : writesPlace i l = false) (s : State) :
    (effect i s).at l = s.at l := by
  cases i with
  | nop => rfl
  | ldw i _ | tofse i _ => exact at_loadW (ne_of_not_written h (by simp)) (ne_of_not_written h (by simp)) s _
  | stb a d =>
    refine at_setBuf fun b hb => Memory.read_write_other _ _ fun hba => ?_
    exact ne_of_not_written h (by simp [hba]) hb
  | ldb a => exact at_setDout (ne_of_not_written h rfl) s _
  | crc8 i => exact at_setAcc (ne_of_not_written h rfl) s _
  | pack i =>
    refine at_setBuf fun b hb => Memory.read_memWrite_other _ _ 3 _ b ?_
    rw [groupAddr_val]
    by_contra hin
    exact ne_of_not_written h (by simp; omega) hb
  | unpack n =>
    have hin (j : RegIdx) (hj : j ∈ groupsBelow n) : j.val < n.toNat := (mem_groupsBelow n j).mp hj
    exact at_unpackGroups (fun j hj => ne_of_not_written h (by simp [hin j hj]))
      (fun j hj => ne_of_not_written h (by simp [hin j hj])) s
  | prese i p =>
    exact (at_setInex (ne_of_not_written h rfl) _ _).trans
      (at_loadW (ne_of_not_written h (by simp)) (ne_of_not_written h (by simp)) s _)
  | frc i =>
    have hcalf : l ≠ .calf := ne_of_not_written h rfl
    have hres : l ≠ .res := ne_of_not_written h rfl
    rw [effect]
    split
    · exact at_setCalf hcalf s true
    · exact (at_setRes hres (s.setCalf false) _).trans (at_setCalf hcalf s false)
  | ser => exact at_setSer (ne_of_not_written h rfl) s _
  | co2 i | temp i | rh i | drdy i => exact at_setRes (ne_of_not_written h rfl) s _

theorem effect_inputs (i : Instr) (s : State) : (effect i s).inputs = s.inputs := by
  cases i with
  | unpack n =>
    obtain ⟨-, -, -, -, -, -, -, -, hin, -⟩ := unpackGroups_frame (groupsBelow n) s
    exact hin
  | frc i => rw [effect]; split <;> rfl
  | _ => rfl

/-- Settles O43: a fault entry writes the fault registers only, and an effect the places that the table lists. -/
theorem commandsWriteOnlyWhatTheTableLists : Obligations.CommandsWriteOnlyWhatTheTableLists := by
  intro i s t h
  rcases exec_cases h with ⟨k, hk, rfl⟩ | ⟨hn, rfl⟩
  · refine ⟨fun _ _ => ⟨fun l hl => ?_, rfl⟩, fun hn => (nomatch hk.symm.trans hn)⟩
    exact at_raiseFault (Bool.eq_false_of_not_eq_true hl) k (encode i) s
  · refine ⟨fun _ hk => (nomatch hn.symm.trans hk), fun _ => ⟨fun l hl => ?_, effect_inputs i s⟩⟩
    exact effect_at_of_not_written (Bool.eq_false_of_not_eq_true hl) s

/-- A command leaves every place but its written places and the fault registers, whether it faults or not. -/
theorem exec_at_of_not_written {i : Instr} {s t : State} (h : exec i s = .next t) {l : Loc}
    (hw : writesPlace i l = false) (hf : l.isFaultRegister = false) : t.at l = s.at l := by
  rcases exec_cases h with ⟨k, -, rfl⟩ | ⟨-, rfl⟩
  · exact at_raiseFault hf k (encode i) s
  · exact effect_at_of_not_written hw s

/-! ### A place determines its register -/

theorem bool_toNat_injective : Function.Injective Bool.toNat := Function.LeftInverse.injective Bool.ofNat_toNat

theorem readW_eq_of_at {s s' : State} {i : RegIdx} (h : s.at (.w i) = s'.at (.w i)) : s.readW i = s'.readW i :=
  BitVec.eq_of_toNat_eq h

theorem readByte_eq_of_at {s s' : State} {a : Nat} (h : s.at (.buf a) = s'.at (.buf a)) : s.readByte a = s'.readByte a :=
  BitVec.eq_of_toNat_eq h

theorem ck_eq_of_at {s s' : State} {i : RegIdx} (h : s.at (.ck i) = s'.at (.ck i)) : s.ck i = s'.ck i :=
  bool_toNat_injective h

theorem calf_eq_of_at {s s' : State} (h : s.at .calf = s'.at .calf) : s.calf = s'.calf := bool_toNat_injective h

theorem inex_eq_of_at {s s' : State} (h : s.at .inex = s'.at .inex) : s.inex = s'.inex := bool_toNat_injective h

end Sys2Proof.Machine
end

section
/-! What every step keeps: the fault registers until a reset (R34, R158), and the invariant of the block. -/

namespace Sys2Proof.Machine

/-! ### Fault entry on the bits of FAULT (R153) -/

theorem getLsbD_mark (k : FaultKind) (f : BitVec 3) {b : Nat} (hb : b < 3) :
    (k.mark f).getLsbD b = (f.getLsbD b || b == k.bit) := by
  revert f b; cases k <;> decide

/-- Fault entry clears no bit of FAULT. -/
theorem getLsbD_mark_of_set (k : FaultKind) {f : BitVec 3} {b : Nat} (h : f.getLsbD b = true) :
    (k.mark f).getLsbD b = true := by
  rw [getLsbD_mark k f (BitVec.lt_of_getLsbD h), h, Bool.true_or]

theorem getLsbD_mark_bit (k : FaultKind) (f : BitVec 3) : (k.mark f).getLsbD k.bit = true := by
  rw [getLsbD_mark k f (by cases k <;> decide), beq_self_eq_true, Bool.or_true]

theorem mark_ne_zero (k : FaultKind) (f : BitVec 3) : k.mark f ≠ 0 :=
  fun h => by simpa [h] using getLsbD_mark_bit k f

/-- The cause code determines the fault. -/
theorem eq_of_code {k k' : FaultKind} (h : k.code.toNat = k'.bit + 1) : k' = k := by
  revert h; cases k <;> cases k' <;> decide

/-! ### Steps -/

/-- What a step leaves (R73, R176): the state as it was, the reset state, or what a command word leaves. -/
theorem step_cases {s t : State} (h : step s = .next t) :
    (s.inputs = [] ∧ t = s)
    ∨ (∃ rest, s.inputs = .reset :: rest ∧ t = hostReset { s with inputs := rest })
    ∨ (∃ c rest, s.inputs = .command c :: rest ∧ runCommand c { s with inputs := rest } = .next t) := by
  match hin : s.inputs with
  | [] =>
    rw [step_of_no_input hin] at h
    exact .inl ⟨rfl, (Host.Outcome.next.inj h).symm⟩
  | .reset :: rest =>
    rw [step_of_input hin] at h
    exact .inr (.inl ⟨rest, rfl, (Host.Outcome.next.inj h).symm⟩)
  | .command c :: rest =>
    rw [step_of_input hin] at h
    exact .inr (.inr ⟨c, rest, rfl, h⟩)

/-! ### The fault registers are sticky (R34, R158) -/

theorem effect_faultRegisters (i : Instr) (s : State) :
    (effect i s).fault = s.fault ∧ (effect i s).fcause = s.fcause ∧ (effect i s).fcmd = s.fcmd := by
  have keeps (l : Loc) (hl : writesPlace i l = false) := effect_at_of_not_written hl s
  exact ⟨BitVec.eq_of_toNat_eq (keeps .fault (by cases i <;> rfl)),
    BitVec.eq_of_toNat_eq (keeps .fcause (by cases i <;> rfl)),
    BitVec.eq_of_toNat_eq (keeps .fcmd (by cases i <;> rfl))⟩

theorem runCommand_sticky {c : Cmd} {s t : State} (h : runCommand c s = .next t) :
    (∀ b, s.fault.getLsbD b = true → t.fault.getLsbD b = true)
    ∧ (s.fcause ≠ 0 → t.fcause = s.fcause ∧ t.fcmd = s.fcmd) := by
  rcases runCommand_cases h with ⟨k, c', -, rfl⟩ | ⟨i, -, rfl⟩
  · exact ⟨fun b hb => getLsbD_mark_of_set k hb, fun hc => by rw [raiseFault_not_first hc]; exact ⟨rfl, rfl⟩⟩
  · obtain ⟨hfault, hcause, hcmd⟩ := effect_faultRegisters i s
    exact ⟨fun b hb => hfault ▸ hb, fun _ => ⟨hcause, hcmd⟩⟩

/-- Settles O16: without a reset a step leaves the state or runs a command word, and a command word writes the fault
registers by fault entry only. -/
theorem faultRegistersAreStickyUntilReset : Obligations.FaultRegistersAreStickyUntilReset := by
  intro s t h hnr
  rcases step_cases h with ⟨-, rfl⟩ | ⟨rest, hin, -⟩ | ⟨c, rest, -, hrun⟩
  · exact ⟨fun _ hb => hb, fun _ => ⟨rfl, rfl⟩⟩
  · exact absurd (by rw [hin]; rfl) hnr
  · exact runCommand_sticky (s := { s with inputs := rest }) hrun

/-! ### The invariant -/

/-- A word that raises a fault leaves a sound fault record, whether or not the fault is the first. -/
theorem raiseFault_faultRecord {s : State} (hs : s.faultRecord) {k : FaultKind} {c : Cmd} (hc : faultOfWord c = some k) :
    (raiseFault k c s).faultRecord := by
  obtain ⟨-, -, hrec⟩ := hs
  by_cases h0 : s.fcause = 0#2
  · rw [raiseFault_first h0]
    refine ⟨iff_of_false (code_ne_zero k) (mark_ne_zero k _), fun h => absurd h (code_ne_zero k), fun k' hk' => ?_⟩
    obtain rfl := eq_of_code hk'
    exact ⟨getLsbD_mark_bit k' s.fault, hc⟩
  · rw [raiseFault_not_first h0]
    refine ⟨iff_of_false h0 (mark_ne_zero k _), fun h => absurd h h0, fun k' hk' => ?_⟩
    obtain ⟨hbit, hword⟩ := hrec k' hk'
    exact ⟨getLsbD_mark_of_set k hbit, hword⟩

theorem raiseFault_inv {s : State} (hs : s.inv) {k : FaultKind} {c : Cmd} (hc : faultOfWord c = some k) :
    (raiseFault k c s).inv := by
  obtain ⟨hbuf, hflags, hrec⟩ := hs
  exact ⟨hbuf, hflags, raiseFault_faultRecord hrec hc⟩

theorem effect_buf_wf {i : Instr} (hf : faultOfWord (encode i) = none) {s : State} (hs : s.buf.wf) :
    (effect i s).buf.wf := by
  rw [faultOfWord_encode] at hf
  cases i with
  | stb a d => exact Memory.wf_write hs (by simpa [faultOfInstr] using hf) d
  | pack i => exact Memory.wf_memWrite hs (groupAddr i) 3 _ (by rw [groupAddr_val, Config.bufBytes]; omega)
  | unpack n =>
    obtain ⟨-, -, -, -, hbuf, -⟩ := unpackGroups_frame (groupsBelow n) s
    exact hbuf ▸ hs
  | frc i => rw [effect]; split <;> exact hs
  | _ => exact hs

theorem unpackGroups_reserved {b : Nat} (hb : b = 3 ∨ 6 ≤ b) (l : List RegIdx) (s : State) :
    (l.foldl unpackGroup s).flags.getLsbD b = s.flags.getLsbD b := by
  induction l generalizing s with
  | nil => rfl
  | cons i l ih =>
    rw [List.foldl_cons, ih]
    exact (getLsbD_putBit _ _ _ _ (by omega)).trans (if_neg (by omega))

/-- No command writes a reserved flag (R25). -/
theorem effect_reserved {b : Nat} (hb : b = 3 ∨ 6 ≤ b) (i : Instr) (s : State) :
    (effect i s).flags.getLsbD b = s.flags.getLsbD b := by
  have other (k : Nat) (hk : k < 3 ∨ k = 4 ∨ k = 5) (v : Bool) (f : BitVec 8) : (putBit k v f).getLsbD b = f.getLsbD b :=
    (getLsbD_putBit _ _ _ _ (by omega)).trans (if_neg (by omega))
  cases i with
  | ldw i v => exact other i (.inl i.isLt) _ _
  | tofse i x => exact other i (.inl i.isLt) _ _
  | prese i p => exact (other 5 (by omega) _ _).trans (other i (.inl i.isLt) _ _)
  | frc i => rw [effect]; split <;> exact other 4 (by omega) _ _
  | unpack n => exact unpackGroups_reserved hb _ s
  | _ => rfl

theorem effect_inv {i : Instr} (hf : faultOfWord (encode i) = none) {s : State} (hs : s.inv) : (effect i s).inv := by
  obtain ⟨hbuf, ⟨h3, h6, h7⟩, hrec⟩ := hs
  obtain ⟨hfault, hcause, hcmd⟩ := effect_faultRegisters i s
  refine ⟨effect_buf_wf hf hbuf, ⟨?_, ?_, ?_⟩, ?_⟩
  · rwa [effect_reserved (by omega)]
  · rwa [effect_reserved (by omega)]
  · rwa [effect_reserved (by omega)]
  · rwa [State.faultRecord, hfault, hcause, hcmd]

theorem runCommand_inv {c : Cmd} {s t : State} (hs : s.inv) (h : runCommand c s = .next t) : t.inv := by
  rcases runCommand_cases h with ⟨k, c', hc', rfl⟩ | ⟨i, hf, rfl⟩
  · exact raiseFault_inv hs hc'
  · exact effect_inv hf hs

theorem hostReset_inv (s : State) : (hostReset s).inv :=
  ⟨Memory.wf_nil, by simp [State.reservedFlagsZero], iff_of_true rfl rfl, fun _ => rfl,
    fun _ hk => absurd hk (Nat.zero_ne_add_one _)⟩

/-- Settles O19: State.reset is what a reset of the host leaves of it. -/
theorem resetStateMeetsTheInvariant : Obligations.ResetStateMeetsTheInvariant :=
  hostReset_inv State.reset

/-- Settles O18: a step leaves the state as it was, resets it, or runs a command word. -/
theorem everyStepKeepsTheInvariant : Obligations.EveryStepKeepsTheInvariant := by
  intro s t hs h
  rcases step_cases h with ⟨-, rfl⟩ | ⟨rest, -, rfl⟩ | ⟨c, rest, -, hrun⟩
  · exact hs
  · exact hostReset_inv _
  · exact runCommand_inv (s := { s with inputs := rest }) hs hrun

end Sys2Proof.Machine
end

section
/-! What commands read (R38), and the writers of the flags (R26 to R28). -/

namespace Sys2Proof.Machine

/-! ### The rows of the column "reads" (R38) -/

@[simp] theorem readsPlace_ldb_buf (a : BitVec 4) (b : Nat) : readsPlace (.ldb a) (.buf b) = decide (a.toNat = b) := rfl
@[simp] theorem readsPlace_crc8_w (i j : RegIdx) : readsPlace (.crc8 i) (.w j) = decide (i = j) := rfl
@[simp] theorem readsPlace_pack_w (i j : RegIdx) : readsPlace (.pack i) (.w j) = decide (i = j) := rfl
@[simp] theorem readsPlace_unpack_buf (n : BitVec 2) (b : Nat) :
    readsPlace (.unpack n) (.buf b) = decide (b < 3 * n.toNat) := rfl
@[simp] theorem readsPlace_co2_w (i j : RegIdx) : readsPlace (.co2 i) (.w j) = decide (i = j) := rfl
@[simp] theorem readsPlace_temp_w (i j : RegIdx) : readsPlace (.temp i) (.w j) = decide (i = j) := rfl
@[simp] theorem readsPlace_rh_w (i j : RegIdx) : readsPlace (.rh i) (.w j) = decide (i = j) := rfl
@[simp] theorem readsPlace_frc_w (i j : RegIdx) : readsPlace (.frc i) (.w j) = decide (i = j) := rfl
@[simp] theorem readsPlace_drdy_w (i j : RegIdx) : readsPlace (.drdy i) (.w j) = decide (i = j) := rfl

/-- The two states agree on every place that the command reads. -/
def AgreeOnReads (i : Instr) (s s' : State) : Prop :=
  ∀ l, readsPlace i l = true → s.at l = s'.at l

theorem AgreeOnReads.readW {i : Instr} {s s' : State} (h : AgreeOnReads i s s') {j : RegIdx}
    (hj : readsPlace i (.w j) = true) : s.readW j = s'.readW j := readW_eq_of_at (h (.w j) hj)

theorem AgreeOnReads.readByte {i : Instr} {s s' : State} (h : AgreeOnReads i s s') {a : Nat}
    (ha : readsPlace i (.buf a) = true) : s.readByte a = s'.readByte a := readByte_eq_of_at (h (.buf a) ha)

/-- UNPACK n reads the three bytes of every group below n. -/
theorem AgreeOnReads.group {n : BitVec 2} {s s' : State} (h : AgreeOnReads (.unpack n) s s') {j : RegIdx}
    (hj : j.val < n.toNat) : s.groupWord j = s'.groupWord j ∧ s.groupCrc j = s'.groupCrc j := by
  have hb (k : Nat) (hk : k < 3) : s.readByte (3 * j.val + k) = s'.readByte (3 * j.val + k) :=
    h.readByte (by simp; omega)
  refine ⟨?_, hb 2 (by omega)⟩
  rw [groupWord_bytes, groupWord_bytes, ← Nat.add_zero (3 * j.val), hb 0 (by omega), hb 1 (by omega)]

/-- A byte of a group written to two buffers is the same in both. -/
theorem read_memWrite_congr (m m' : Memory) (a n : Nat) (v : BitVec (8 * n)) {b : Nat} (h : a ≤ b) (h' : b < a + n) :
    (m.memWrite a n v).read b = (m'.memWrite a n v).read b := by
  obtain ⟨k, rfl⟩ := Nat.exists_eq_add_of_le h
  rw [Memory.read_memWrite _ _ _ _ _ (by omega), Memory.read_memWrite _ _ _ _ _ (by omega)]

/-- A loaded register and its flag hold the same in both states. -/
theorem at_loadW_congr (s s' : State) (i : RegIdx) (v : Word) {l : Loc} (hl : l = .w i ∨ l = .ck i) :
    (s.loadW i v).at l = (s'.loadW i v).at l := by
  rcases hl with rfl | rfl
  · simp [State.at, readW_loadW]
  · simp [State.at, ck_loadW]

/-- What a command writes depends on the places it reads only; an FRC that fails writes no result in either state. -/
theorem effect_at_congr {i : Instr} {s s' : State} (h : AgreeOnReads i s s') {l : Loc} (hw : writesPlace i l = true) :
    (effect i s).at l = (effect i s').at l ∨ ((effect i s).at l = s.at l ∧ (effect i s').at l = s'.at l) := by
  cases i with
  | nop => cases hw
  | ldw i _ | tofse i _ =>
    cases l with
    | w j => exact .inl (at_loadW_congr s s' i _ (.inl (by simpa [eq_comm] using hw)))
    | ck j => exact .inl (at_loadW_congr s s' i _ (.inr (by simpa [eq_comm] using hw)))
    | _ => cases hw
  | prese i p =>
    cases l with
    | w j =>
      refine .inl ?_
      rw [effect, effect, at_setInex (by simp), at_setInex (by simp)]
      exact at_loadW_congr s s' i _ (.inl (by simpa [eq_comm] using hw))
    | ck j =>
      refine .inl ?_
      rw [effect, effect, at_setInex (by simp), at_setInex (by simp)]
      exact at_loadW_congr s s' i _ (.inr (by simpa [eq_comm] using hw))
    | inex => exact .inl (by simp [effect, State.at])
    | _ => cases hw
  | stb a d =>
    cases l with
    | buf b =>
      obtain rfl : a.toNat = b := by simpa using hw
      exact .inl (by simp [effect, State.at, State.readByte])
    | _ => cases hw
  | ldb a =>
    cases l with
    | dout => exact .inl (congrArg BitVec.toNat (h.readByte (by simp)))
    | _ => cases hw
  | crc8 i =>
    have hread : s.readW i = s'.readW i := h.readW (by simp)
    cases l with
    | acc => exact .inl (by simp only [effect, State.at, hread])
    | _ => cases hw
  | pack i =>
    have hread : s.readW i = s'.readW i := h.readW (by simp)
    cases l with
    | buf b =>
      obtain ⟨hlo, hhi⟩ : 3 * i.val ≤ b ∧ b < 3 * i.val + 3 := by simpa using hw
      refine .inl (congrArg BitVec.toNat ?_)
      simp only [effect, State.readByte, hread]
      exact read_memWrite_congr _ _ _ 3 _ hlo hhi
    | _ => cases hw
  | unpack n =>
    cases l with
    | w j =>
      obtain ⟨hword, -⟩ := h.group (j := j) (by simpa using hw)
      exact .inl (by simp_all [effect, State.at, readW_unpackGroups, mem_groupsBelow])
    | ck j =>
      obtain ⟨hword, hcrc⟩ := h.group (j := j) (by simpa using hw)
      exact .inl (by simp_all [effect, State.at, ck_unpackGroups, mem_groupsBelow])
    | _ => cases hw
  | co2 i | temp i | rh i | drdy i =>
    have hread : s.readW i = s'.readW i := h.readW (by simp)
    cases l with
    | res => exact .inl (by simp only [effect, State.at, hread])
    | _ => cases hw
  | frc i =>
    have hread : s.readW i = s'.readW i := h.readW (by simp)
    simp only [effect, ← hread]
    split
    · cases l with
      | calf => exact .inl (by simp [State.at])
      | res => exact .inr ⟨rfl, rfl⟩
      | _ => cases hw
    · cases l with
      | calf => exact .inl (congrArg Bool.toNat ((calf_setCalf s false).trans (calf_setCalf s' false).symm))
      | res => exact .inl rfl
      | _ => cases hw
  | ser =>
    have hread (j : RegIdx) : s.readW j = s'.readW j := h.readW rfl
    cases l with
    | ser => exact .inl (by simp only [effect, State.at, hread])
    | _ => cases hw

/-- Settles O44: a fault leaves every place but the fault registers in both states, and an effect every place that it does
not write; what an effect writes depends on the places read. -/
theorem commandsReadOnlyWhatTheTableLists : Obligations.CommandsReadOnlyWhatTheTableLists := by
  intro i s s' t t' hagree h h' l hl
  cases hf : faultOfWord (encode i) with
  | some k =>
    obtain rfl := Host.Outcome.next.inj ((exec_of_fault hf s).symm.trans h)
    obtain rfl := Host.Outcome.next.inj ((exec_of_fault hf s').symm.trans h')
    exact .inr ⟨at_raiseFault hl k _ s, at_raiseFault hl k _ s'⟩
  | none =>
    obtain rfl := Host.Outcome.next.inj ((exec_of_no_fault hf s).symm.trans h)
    obtain rfl := Host.Outcome.next.inj ((exec_of_no_fault hf s').symm.trans h')
    cases hw : writesPlace i l with
    | true => exact effect_at_congr hagree hw
    | false => exact .inr ⟨effect_at_of_not_written hw s, effect_at_of_not_written hw s'⟩

/-! ### CK follows the last writer of its word (R26) -/

/-- The commands that write a word register write its checksum flag as well, and no others do. -/
theorem writesPlace_ck (i : Instr) (r : RegIdx) : writesPlace i (.ck r) = writesPlace i (.w r) := by
  cases i <;> rfl

theorem ck_effect_of_written {i : Instr} {r : RegIdx} (hw : writesPlace i (.w r) = true) (s : State) :
    (effect i s).ck r = true ↔ (∃ n, i = .unpack n) ∧ crc8 ((effect i s).readW r) ≠ s.readByte (3 * r.val + 2) := by
  cases i with
  | ldw i _ | tofse i _ | prese i _ =>
    obtain rfl : i = r := by simpa using hw
    simp [effect, ck_loadW]
  | unpack n =>
    have hr : r ∈ groupsBelow n := (mem_groupsBelow n r).mpr (by simpa using hw)
    simp [effect, ck_unpackGroups, readW_unpackGroups, hr, checksumMismatch, State.groupCrc, groupCrcAddr_val]
  | _ => cases hw

/-- Settles O45: an effect that writes W[r] writes CK[r], and any other leaves both. -/
theorem checksumFlagFollowsTheLastWriterOfItsWord : Obligations.ChecksumFlagFollowsTheLastWriterOfItsWord := by
  intro i s t r h hf
  obtain rfl : effect i s = t := Host.Outcome.next.inj ((exec_of_no_fault hf s).symm.trans h)
  refine ⟨fun hw => ck_effect_of_written hw s, fun hw => ⟨ck_eq_of_at ?_, readW_eq_of_at ?_⟩⟩
  · exact effect_at_of_not_written ((writesPlace_ck i r).trans hw) s
  · exact effect_at_of_not_written hw s

/-! ### CALF and INEX (R27, R28) -/

theorem writesPlace_calf {i : Instr} (h : ∀ r, i ≠ .frc r) : writesPlace i .calf = false := by
  cases i with
  | frc r => exact absurd rfl (h r)
  | _ => rfl

theorem writesPlace_inex {i : Instr} (h : ∀ r p, i ≠ .prese r p) : writesPlace i .inex = false := by
  cases i with
  | prese r p => exact absurd rfl (h r p)
  | _ => rfl

/-- Settles O46: by whether the word that FRC reads is 0xFFFF; no other command has CALF in the column "writes". -/
theorem calibrationFlagIsWrittenByFrcOnly : Obligations.CalibrationFlagIsWrittenByFrcOnly := by
  refine ⟨fun r s => ?_, fun i s t hi h => calf_eq_of_at (exec_at_of_not_written h (writesPlace_calf hi) rfl)⟩
  by_cases hw : s.readW r = 0xFFFF#16
  · exact ⟨_, execFrc_failed hw, by simp [hw]⟩
  · exact ⟨_, execFrc_ok hw, iff_of_false (Bool.eq_false_iff.mp (calf_setCalf s false)) hw⟩

/-- Settles O47: by whether the pressure fits; no other command has INEX in the column "writes". -/
theorem inexactFlagIsWrittenByPreseOnly : Obligations.InexactFlagIsWrittenByPreseOnly := by
  refine ⟨fun r p s hp => ?_, fun r p s hp => ?_, fun i s t hi h => ?_⟩
  · exact ⟨_, execPrese_fits ((pressureQuotient_fits p).mpr hp) s, by simp [inexactPressure_eq]⟩
  · exact ⟨_, execPrese_tooLarge (pressureQuotient_tooLarge hp) s, inex_raiseFault s _ _⟩
  · exact inex_eq_of_at (exec_at_of_not_written h (writesPlace_inex hi) rfl)

end Sys2Proof.Machine
end

section
/-! Reset, the output ports, and the clocked view (R21, R40, R170, R175). -/

namespace Sys2Proof.Machine

/-! ### Reset and the output ports -/

/-- A reset leaves nothing of the old state on the output ports (R40). -/
theorem hostReset_ports (s : State) : (hostReset s).ports = State.reset.ports := rfl

theorem hostReset_hasResetValues (s : State) : (hostReset s).hasResetValues :=
  ⟨(hostReset_ports s).trans (by decide), fun _ _ => rfl⟩

theorem clockEdge_reset {p : Pins} (h : p.rst = true) (b : ClockedBlock) :
    clockEdge p b = .next { state := hostReset b.state, busy := none } := by
  rw [clockEdge, if_pos h]

/-- Settles O8: State.reset is what a reset of the host leaves of it, and both kinds of reset are the host's. -/
theorem resetGivesEveryRegisterItsResetValue : Obligations.ResetGivesEveryRegisterItsResetValue :=
  ⟨hostReset_hasResetValues State.reset,
    fun _ _ hin => ⟨_, step_of_input hin, hostReset_hasResetValues _, rfl⟩,
    fun _ b hp => ⟨_, clockEdge_reset hp b, rfl, hostReset_hasResetValues b.state⟩⟩

/-- FLAGS reads as stored but for the reserved bits (R25). -/
theorem getLsbD_readFlags (s : State) (b : Nat) :
    s.readFlags.getLsbD b = (s.flags.getLsbD b && (0b00110111#8).getLsbD b) :=
  BitVec.getLsbD_and

/-- The mask with which FLAGS is read keeps CK0 to CK2. -/
theorem flagsMask_ck (i : RegIdx) : (0b00110111#8).getLsbD i.val = true := by
  revert i; decide

/-- Settles O52: every port but `flags` is its register; `flags` is read bit by bit. -/
theorem outputPortsShowTheRegisters : Obligations.OutputPortsShowTheRegisters := by
  intro s
  have shown (b : Nat) (hb : (0b00110111#8).getLsbD b = true) : s.ports.flags.getLsbD b = s.flags.getLsbD b := by
    rw [State.ports, getLsbD_readFlags, hb, Bool.and_true]
  have hidden (b : Nat) (hb : (0b00110111#8).getLsbD b = false) : s.ports.flags.getLsbD b = false := by
    rw [State.ports, getLsbD_readFlags, hb, Bool.and_false]
  exact ⟨rfl, rfl, rfl, fun i => shown i.val (flagsMask_ck i), shown 4 rfl, shown 5 rfl, hidden 3 rfl, hidden 6 rfl,
    hidden 7 rfl, rfl, rfl, rfl, rfl, rfl, rfl, rfl⟩

/-! ### Clock edges -/

theorem clockEdges_cons {p : Pins} {b b' : ClockedBlock} (h : clockEdge p b = .next b') (ps : List Pins) :
    clockEdges (p :: ps) b = clockEdges ps b' := by
  rw [clockEdges, h]

theorem clockEdges_append {ps : List Pins} {b b' : ClockedBlock} (h : clockEdges ps b = .next b') (qs : List Pins) :
    clockEdges (ps ++ qs) b = clockEdges qs b' := by
  induction ps generalizing b with
  | nil => obtain rfl := Host.Outcome.next.inj h; rfl
  | cons p ps ih =>
    cases hp : clockEdge p b with
    | next b₁ =>
      rw [clockEdges_cons hp] at h
      rw [List.cons_append, clockEdges_cons hp, ih h]
    | fault r => exact nomatch r
    | refused r => rw [clockEdges, hp] at h; cases h

theorem clockEdge_accept {p : Pins} {b : ClockedBlock} (hb : b.busy = none) (hr : p.rst = false)
    (hv : p.cmdValid = true) :
    clockEdge p b = .next { state := b.state, busy := some (p.cmd, Config.extraCycles p.cmd) } := by
  simp [clockEdge, hb, hr, hv]

theorem clockEdge_wait {p : Pins} (hr : p.rst = false) (s : State) (c : Cmd) (n : Nat) :
    clockEdge p { state := s, busy := some (c, n + 1) } = .next { state := s, busy := some (c, n) } := by
  simp [clockEdge, hr]

theorem clockEdge_complete {p : Pins} (hr : p.rst = false) {s t : State} {c : Cmd} (h : runCommand c s = .next t) :
    clockEdge p { state := s, busy := some (c, 0) } = .next { state := t, busy := none } := by
  simp [clockEdge, hr, completeCommand, h]

/-- Clock edges without reset, no more than the command in progress still waits for, leave the state. -/
theorem clockEdges_wait {ps : List Pins} (hr : ∀ q ∈ ps, q.rst = false) (s : State) (c : Cmd) (n : Nat) :
    clockEdges ps { state := s, busy := some (c, n + ps.length) } = .next { state := s, busy := some (c, n) } := by
  induction ps with
  | nil => rfl
  | cons p ps ih =>
    obtain ⟨hp, hps⟩ := List.forall_mem_cons.mp hr
    exact (clockEdges_cons (clockEdge_wait hp s c _) ps).trans (ih hps)

/-- From acceptance on and before completion, the state is the old one and the command is in progress. -/
theorem clockEdges_in_progress {b : ClockedBlock} {p : Pins} {ps : List Pins} (hb : b.busy = none) (hp : p.rst = false)
    (hv : p.cmdValid = true) (hr : ∀ q ∈ ps, q.rst = false) {n : Nat} (hn : n + ps.length = Config.extraCycles p.cmd) :
    clockEdges (p :: ps) b = .next { state := b.state, busy := some (p.cmd, n) } := by
  rw [clockEdges_cons (clockEdge_accept hb hp hv), ← hn, clockEdges_wait hr]

/-- Settles O49: the edges but the last leave the command in progress, and the last one completes it. -/
theorem clockedCommandEqualsItsAtomicStep : Obligations.ClockedCommandEqualsItsAtomicStep := by
  intro b p ps t hb hp hv hr hlen hrun
  obtain ⟨qs, q, rfl⟩ : ∃ qs q, ps = qs ++ [q] := by
    rcases List.eq_nil_or_concat ps with rfl | h
    · simp only [List.length_nil] at hlen; omega
    · simpa using h
  have hqs : clockEdges (p :: qs) b = .next { state := b.state, busy := some (p.cmd, 0) } :=
    clockEdges_in_progress hb hp hv (fun q' h => hr q' (List.mem_append_left _ h)) (by simp at hlen; omega)
  rw [← List.cons_append, clockEdges_append hqs]
  exact clockEdges_cons (clockEdge_complete (hr q (by simp)) hrun) []

/-- Settles O50: before completion the command is in progress, and its state is the old one. -/
theorem portsShowTheOldStateUntilCompletion : Obligations.PortsShowTheOldStateUntilCompletion := by
  intro b p ps hb hp hv hr hlen
  refine ⟨_, clockEdges_in_progress hb hp hv hr (Nat.sub_add_cancel hlen), rfl, rfl, fun q => ?_⟩
  exact Bool.and_false (!q.rst)

/-- Settles O51: before completion the state is the old one, so a reset leaves what it leaves of the old state. -/
theorem resetAbandonsTheCommandInProgress : Obligations.ResetAbandonsTheCommandInProgress := by
  intro b p ps r hb hp hv hr hlen hrst
  have hprogress := clockEdges_in_progress hb hp hv hr (Nat.sub_add_cancel hlen)
  refine ⟨_, ?_, clockEdge_reset hrst b, hostReset_hasResetValues b.state, rfl⟩
  rw [clockEdges_append hprogress]
  exact clockEdges_cons (clockEdge_reset hrst _) []

end Sys2Proof.Machine
end

section
/-! Repeating a command at once (R57): no command reads a place that it writes, so a second run writes the same again. -/

namespace Sys2Proof.Machine

/-! ### The places determine the state -/

/-- FLAGS is its five named flags and its reserved bits (R25). -/
theorem flags_eq_of_at {s t : State} (hat : ∀ l, s.at l = t.at l)
    (hres : ∀ b, b = 3 ∨ 6 ≤ b → s.flags.getLsbD b = t.flags.getLsbD b) : s.flags = t.flags := by
  refine BitVec.eq_of_getLsbD_eq fun b _ => ?_
  obtain hck | rfl | rfl | hreserved : b < 3 ∨ b = 4 ∨ b = 5 ∨ (b = 3 ∨ 6 ≤ b) := by omega
  · exact ck_eq_of_at (hat (.ck ⟨b, hck⟩))
  · exact calf_eq_of_at (hat .calf)
  · exact inex_eq_of_at (hat .inex)
  · exact hres b hreserved

/-- States with canonical buffers that hold the same in every place, in the reserved flags and in the pending inputs are
equal. -/
theorem State.ext_of_at {s t : State} (hs : s.buf.wf) (ht : t.buf.wf) (hat : ∀ l, s.at l = t.at l)
    (hres : ∀ b, b = 3 ∨ 6 ≤ b → s.flags.getLsbD b = t.flags.getLsbD b) (hin : s.inputs = t.inputs) : s = t := by
  have hw : s.w = t.w := Vector.ext fun i hi => readW_eq_of_at (hat (.w ⟨i, hi⟩))
  have hflags : s.flags = t.flags := flags_eq_of_at hat hres
  have hacc : s.acc = t.acc := BitVec.eq_of_toNat_eq (hat .acc)
  have hresult : s.res = t.res := BitVec.eq_of_toNat_eq (hat .res)
  have hser : s.ser = t.ser := BitVec.eq_of_toNat_eq (hat .ser)
  have hdout : s.dout = t.dout := BitVec.eq_of_toNat_eq (hat .dout)
  have hbuf : s.buf = t.buf := Memory.ext_of_wf hs ht fun a => readByte_eq_of_at (hat (.buf a))
  have hfault : s.fault = t.fault := BitVec.eq_of_toNat_eq (hat .fault)
  have hfcause : s.fcause = t.fcause := BitVec.eq_of_toNat_eq (hat .fcause)
  have hfcmd : s.fcmd = t.fcmd := BitVec.eq_of_toNat_eq (hat .fcmd)
  cases s
  cases t
  rw [State.mk.injEq]
  exact ⟨hw, hflags, hacc, hresult, hser, hdout, hbuf, hfault, hfcause, hfcmd, hin⟩

/-! ### A command that does not fault -/

/-- No command has a place in both columns of the table of R38. -/
theorem writesPlace_of_read {i : Instr} {l : Loc} (h : readsPlace i l = true) : writesPlace i l = false := by
  cases i with
  | ldb a | unpack n =>
    cases l with
    | buf b => rfl
    | _ => cases h
  | crc8 i | pack i | co2 i | temp i | rh i | frc i | ser | drdy i =>
    cases l with
    | w j => rfl
    | _ => cases h
  | _ => cases h

/-- The second run reads what the first one read. -/
theorem agreeOnReads_effect (i : Instr) (s : State) : AgreeOnReads i s (effect i s) :=
  fun _ hl => (effect_at_of_not_written (writesPlace_of_read hl) s).symm

theorem effect_effect_at (i : Instr) (s : State) (l : Loc) : (effect i (effect i s)).at l = (effect i s).at l := by
  cases hw : writesPlace i l with
  | false => exact effect_at_of_not_written hw (effect i s)
  | true =>
    rcases effect_at_congr (agreeOnReads_effect i s) hw with hsame | ⟨-, hkept⟩
    · exact hsame.symm
    · exact hkept

theorem effect_idempotent {i : Instr} (hf : faultOfWord (encode i) = none) {s : State} (hs : s.buf.wf) :
    effect i (effect i s) = effect i s :=
  have hwf : (effect i s).buf.wf := effect_buf_wf hf hs
  State.ext_of_at (effect_buf_wf hf hwf) hwf (effect_effect_at i s) (fun _ hb => effect_reserved hb i _) (effect_inputs i _)

/-! ### A command that faults (R153) -/

theorem mark_idempotent (k : FaultKind) (f : BitVec 3) : k.mark (k.mark f) = k.mark f := by
  cases k <;> simp [FaultKind.mark, BitVec.or_assoc]

theorem fcause_raiseFault_ne_zero (k : FaultKind) (c : Cmd) (s : State) : (raiseFault k c s).fcause ≠ 0#2 := by
  rw [raiseFault_fcause]
  split
  · exact code_ne_zero k
  · next hearlier => exact hearlier

/-- The second fault is not the first since reset, and its bit is set already. -/
theorem raiseFault_idempotent (k : FaultKind) (c : Cmd) (s : State) :
    raiseFault k c (raiseFault k c s) = raiseFault k c s := by
  rw [raiseFault_not_first (fcause_raiseFault_ne_zero k c s), raiseFault_fault, mark_idempotent, ← raiseFault_fault]

/-- Settles O48: whether a command faults is in its word, and both a fault entry and an effect are idempotent. -/
theorem repeatingACommandChangesNothingMore : Obligations.RepeatingACommandChangesNothingMore := by
  intro i s t hs h
  rcases exec_cases h with ⟨k, hk, rfl⟩ | ⟨hn, rfl⟩
  · rw [exec_of_fault hk, raiseFault_idempotent]
  · rw [exec_of_no_fault hn, effect_idempotent hn hs]

end Sys2Proof.Machine
end

section
/-! The decoder and the encoder are inverse to each other (R71 to R74). -/

namespace Sys2Proof.Machine

/-! ### The fields of a word that the formats check or read (R71, R74) -/

@[simp] theorem lowBits_wordOf (op : BitVec 6) (idx : BitVec 2) (imm : BitVec 24) :
    (wordOf op idx imm).extractLsb' 0 26 = idx ++ imm := by
  refine BitVec.eq_of_toNat_eq ?_
  rw [toNat_field, toNat_wordOf, toNat_append_add]
  omega

@[simp] theorem bits23to16_wordOf (op : BitVec 6) (idx : BitVec 2) (hi : BitVec 8) (v : BitVec 16) :
    (wordOf op idx (hi ++ v)).extractLsb' 16 8 = hi := by
  refine BitVec.eq_of_toNat_eq ?_
  rw [toNat_field, toNat_wordOf, toNat_append_add]
  omega

@[simp] theorem imm16Field_wordOf (op : BitVec 6) (idx : BitVec 2) (hi : BitVec 8) (v : BitVec 16) :
    imm16Field (wordOf op idx (hi ++ v)) = v := by
  refine BitVec.eq_of_toNat_eq ?_
  rw [imm16Field, toNat_field, toNat_wordOf, toNat_append_add]
  omega

@[simp] theorem bits25to12_wordOf (op : BitVec 6) (idx : BitVec 2) (hi : BitVec 12) (a : BitVec 4) (d : BitVec 8) :
    (wordOf op idx (hi ++ a ++ d)).extractLsb' 12 14 = idx ++ hi := by
  refine BitVec.eq_of_toNat_eq ?_
  rw [toNat_field, toNat_wordOf, toNat_append_add, toNat_append_add, toNat_append_add]
  omega

@[simp] theorem bits7to0_wordOf (op : BitVec 6) (idx : BitVec 2) (hi : BitVec 12) (a : BitVec 4) (d : BitVec 8) :
    (wordOf op idx (hi ++ a ++ d)).extractLsb' 0 8 = d := by
  refine BitVec.eq_of_toNat_eq ?_
  rw [toNat_field, toNat_wordOf, toNat_append_add, toNat_append_add]
  omega

@[simp] theorem dataField_wordOf (op : BitVec 6) (idx : BitVec 2) (hi : BitVec 12) (a : BitVec 4) (d : BitVec 8) :
    dataField (wordOf op idx (hi ++ a ++ d)) = d :=
  bits7to0_wordOf op idx hi a d

/-! ### Decoding an encoded command (R72, R73, R74) -/

theorem decode_encode (i : Instr) : decode (encode i) = .command i := by
  cases i with
  | nop | ser => rfl
  | stb a d | ldb a | unpack n => simp [decode, encode, zeroChecked_command]
  | ldw i v | crc8 i | pack i | co2 i | temp i | rh i | tofse i x | prese i p | frc i | drdy i =>
    simp [decode, encode, regChecked_command]

/-- Settles O2: format by format, the fields that the decoder checks are zero in the encoding and those that it reads hold
the operands. -/
theorem decodeReadsBackEveryEncodedCommand : Obligations.DecodeReadsBackEveryEncodedCommand :=
  decode_encode

/-! ### Encoding a decoded command (R71, R75) -/

theorem append_eq_zero {m n : Nat} {x : BitVec m} {y : BitVec n} (h : x ++ y = 0) : x = 0 ∧ y = 0 := by
  have hx := BitVec.extractLsb'_append_eq_left (a := x) (b := y)
  have hy := BitVec.extractLsb'_append_eq_right (a := x) (b := y)
  rw [h] at hx hy
  exact ⟨hx.symm.trans (by simp), hy.symm.trans (by simp)⟩

theorem exists_top_word (imm : BitVec 24) : ∃ (hi : BitVec 8) (v : BitVec 16), imm = hi ++ v :=
  ⟨_, _, (BitVec.extractLsb'_append_extractLsb' (w := 8) (len := 16)).symm⟩

theorem exists_addr_data (imm : BitVec 24) :
    ∃ (hi : BitVec 12) (a : BitVec 4) (d : BitVec 8), imm = hi ++ a ++ d := by
  have hupper := BitVec.extractLsb'_append_extractLsb'_eq_extractLsb' (x := imm) (start₂ := 12) (start₁ := 8)
    (len₂ := 12) (len₁ := 4) rfl
  refine ⟨imm.extractLsb' 12 12, imm.extractLsb' 8 4, imm.extractLsb' 0 8, ?_⟩
  rw [hupper]
  exact (BitVec.extractLsb'_append_extractLsb' (w := 16) (len := 8)).symm

/-! The formats of R71 one by one: a word that passes the decoder's check of its format is the encoding of its command. -/

section
variable {op : BitVec 6} {idx : BitVec 2} {imm : BitVec 24} {i j : Instr} {mk : RegIdx → Instr}

theorem encode_of_formatZ (code : BitVec 6) (hop : op.toNat = code.toNat)
    (h : zeroChecked (idx ++ imm) j = .command i) (hj : encode j = wordOf code 0#2 0#24) :
    encode i = wordOf op idx imm := by
  obtain rfl := BitVec.eq_of_toNat_eq hop
  obtain ⟨hzero, rfl⟩ := zeroChecked_command.mp h
  obtain ⟨rfl, rfl⟩ := append_eq_zero hzero
  exact hj

theorem encode_of_formatN (code : BitVec 6) (hop : op.toNat = code.toNat)
    (h : zeroChecked imm j = .command i) (hj : encode j = wordOf code idx 0#24) : encode i = wordOf op idx imm := by
  obtain rfl := BitVec.eq_of_toNat_eq hop
  obtain ⟨rfl, rfl⟩ := zeroChecked_command.mp h
  exact hj

theorem encode_of_formatR (code : BitVec 6) (hop : op.toNat = code.toNat)
    (h : regChecked (wordOf op idx imm) imm mk = .command i)
    (hmk : ∀ r, encode (mk r) = wordOf code (idxOfReg r) 0#24) : encode i = wordOf op idx imm := by
  obtain rfl := BitVec.eq_of_toNat_eq hop
  obtain ⟨r, hr, rfl, rfl⟩ := regChecked_command.mp h
  rw [idxField_wordOf] at hr
  rw [regOfIdx_eq_some hr]
  exact hmk r

theorem encode_of_formatI24 (code : BitVec 6) (hop : op.toNat = code.toNat)
    (h : regChecked (wordOf op idx imm) 0#0 mk = .command i)
    (hmk : ∀ r, encode (mk r) = wordOf code (idxOfReg r) imm) : encode i = wordOf op idx imm := by
  obtain rfl := BitVec.eq_of_toNat_eq hop
  obtain ⟨r, hr, -, rfl⟩ := regChecked_command.mp h
  rw [idxField_wordOf] at hr
  rw [regOfIdx_eq_some hr]
  exact hmk r

end

theorem encode_of_formatI16 {op : BitVec 6} {idx : BitVec 2} {top : BitVec 8} {v : BitVec 16} {i : Instr}
    (hop : op.toNat = (0x01#6).toNat)
    (h : regChecked (wordOf op idx (top ++ v)) top (fun r => .ldw r v) = .command i) :
    encode i = wordOf op idx (top ++ v) := by
  obtain rfl := BitVec.eq_of_toNat_eq hop
  obtain ⟨r, hr, rfl, rfl⟩ := regChecked_command.mp h
  rw [idxField_wordOf] at hr
  rw [regOfIdx_eq_some hr]
  rfl

theorem encode_of_formatSB {op : BitVec 6} {idx : BitVec 2} {hi : BitVec 12} {a : BitVec 4} {d : BitVec 8} {i : Instr}
    (hop : op.toNat = (0x02#6).toNat) (h : zeroChecked (idx ++ hi) (.stb a d) = .command i) :
    encode i = wordOf op idx (hi ++ a ++ d) := by
  obtain rfl := BitVec.eq_of_toNat_eq hop
  obtain ⟨hzero, rfl⟩ := zeroChecked_command.mp h
  obtain ⟨rfl, rfl⟩ := append_eq_zero hzero
  rfl

theorem encode_of_formatLB {op : BitVec 6} {idx : BitVec 2} {hi : BitVec 12} {a : BitVec 4} {d : BitVec 8} {i : Instr}
    (hop : op.toNat = (0x03#6).toNat) (h : zeroChecked (idx ++ hi ++ d) (.ldb a) = .command i) :
    encode i = wordOf op idx (hi ++ a ++ d) := by
  obtain rfl := BitVec.eq_of_toNat_eq hop
  obtain ⟨hzero, rfl⟩ := zeroChecked_command.mp h
  obtain ⟨hupper, rfl⟩ := append_eq_zero hzero
  obtain ⟨rfl, rfl⟩ := append_eq_zero hupper
  rfl

theorem encode_of_decode_wordOf {op : BitVec 6} {idx : BitVec 2} {imm : BitVec 24} {i : Instr}
    (h : decode (wordOf op idx imm) = .command i) : encode i = wordOf op idx imm := by
  simp only [decode, opField_wordOf, idxField_wordOf, imm24Field_wordOf, lowBits_wordOf] at h
  split at h
  · next hop => exact encode_of_formatZ 0x00#6 hop h rfl
  · next hop =>
    obtain ⟨top, v, rfl⟩ := exists_top_word imm
    rw [bits23to16_wordOf, imm16Field_wordOf] at h
    exact encode_of_formatI16 hop h
  · next hop =>
    obtain ⟨hi, a, d, rfl⟩ := exists_addr_data imm
    rw [bits25to12_wordOf, addrField_wordOf, dataField_wordOf] at h
    exact encode_of_formatSB hop h
  · next hop =>
    obtain ⟨hi, a, d, rfl⟩ := exists_addr_data imm
    rw [bits25to12_wordOf, bits7to0_wordOf, addrField_wordOf] at h
    exact encode_of_formatLB hop h
  · next hop => exact encode_of_formatR 0x08#6 hop h fun _ => rfl
  · next hop => exact encode_of_formatR 0x10#6 hop h fun _ => rfl
  · next hop => exact encode_of_formatN 0x11#6 hop h rfl
  · next hop => exact encode_of_formatR 0x20#6 hop h fun _ => rfl
  · next hop => exact encode_of_formatR 0x21#6 hop h fun _ => rfl
  · next hop => exact encode_of_formatR 0x22#6 hop h fun _ => rfl
  · next hop => exact encode_of_formatI24 0x23#6 hop h fun _ => rfl
  · next hop => exact encode_of_formatI24 0x24#6 hop h fun _ => rfl
  · next hop => exact encode_of_formatR 0x25#6 hop h fun _ => rfl
  · next hop => exact encode_of_formatZ 0x26#6 hop h rfl
  · next hop => exact encode_of_formatR 0x27#6 hop h fun _ => rfl
  · cases h

/-- Settles O3: a word is built from its primary fields, and the decoder takes the arm of its opcode; format by format,
the fields that are not operands are zero. -/
theorem eachCommandHasOneEncoding : Obligations.EachCommandHasOneEncoding := by
  intro c i h
  rw [← wordOf_fields c] at h ⊢
  exact encode_of_decode_wordOf h

end Sys2Proof.Machine
end

section
/-! The opcode table: its rows against the decoder (R72), and the three classes of illegal words (R75). -/

namespace Sys2Proof.Machine

/-! ### The rows of the table (R71, R72) -/

/-- A row's mask keeps the opcode and the bits that the format shows as zero; its pattern is an opcode over zeros. -/
theorem opcodeTable_masks : ∀ r ∈ opcodeTable,
    r.mask = 0xFC000000#32 ||| r.format.zeroBits ∧ r.pattern &&& 0xFC000000#32 = r.pattern
      ∧ 0xFC000000#32 &&& r.format.zeroBits = 0#32 := by decide

theorem opcodeTable_opcodes_distinct : ∀ r ∈ opcodeTable, ∀ r' ∈ opcodeTable,
    r.pattern &&& 0xFC000000#32 = r'.pattern &&& 0xFC000000#32 → r = r' := by decide

/-- A comparison under two disjoint masks is one comparison under each. -/
theorem and_or_eq_iff {w : Nat} {c m z p : BitVec w} (hp : p &&& m = p) (hmz : m &&& z = 0#w) :
    c &&& (m ||| z) = p ↔ c &&& m = p ∧ c &&& z = 0#w := by
  rw [BitVec.and_or_distrib_left]
  constructor
  · intro h
    have hzm : z &&& m = 0#w := by rw [BitVec.and_comm, hmz]
    have hpz : p &&& z = 0#w := by rw [← hp, BitVec.and_assoc, hmz, BitVec.and_zero]
    constructor
    · rw [← hp, ← h, BitVec.and_or_distrib_right, BitVec.and_assoc, BitVec.and_assoc, BitVec.and_self, hzm,
        BitVec.and_zero, BitVec.or_zero]
    · rw [← hpz, ← h, BitVec.and_or_distrib_right, BitVec.and_assoc, BitVec.and_assoc, BitVec.and_self, hmz,
        BitVec.and_zero, BitVec.zero_or]
  · rintro ⟨hm, hz⟩
    rw [hm, hz, BitVec.or_zero]

/-- A word selects a row when the opcode is the row's, its zero field is zero, and it names a register where it must. -/
theorem selects_eq {r : OpcodeRow} (hr : r ∈ opcodeTable) (c : Cmd) :
    r.selects c = (r.sameOpcode c
      && (c &&& r.format.zeroBits == 0#32 && !(r.format.namesRegister && c &&& 0x03000000#32 == 0x03000000#32))) := by
  obtain ⟨hmask, hpattern, hdisjoint⟩ := opcodeTable_masks r hr
  have hmatch : (c &&& r.mask == r.pattern) = (r.sameOpcode c && c &&& r.format.zeroBits == 0#32) := by
    rw [OpcodeRow.sameOpcode, hmask, hpattern, Bool.eq_iff_iff, Bool.and_eq_true, beq_iff_eq, beq_iff_eq, beq_iff_eq]
    exact and_or_eq_iff hpattern hdisjoint
  rw [OpcodeRow.selects, hmatch, Bool.and_assoc]

theorem sameOpcode_of_selects {r : OpcodeRow} (hr : r ∈ opcodeTable) {c : Cmd} (h : r.selects c = true) :
    r.sameOpcode c = true := by
  rw [selects_eq hr, Bool.and_eq_true] at h
  exact h.1

theorem eq_of_sameOpcode {r r' : OpcodeRow} (hr : r ∈ opcodeTable) (hr' : r' ∈ opcodeTable) {c : Cmd}
    (h : r.sameOpcode c = true) (h' : r'.sameOpcode c = true) : r = r' :=
  opcodeTable_opcodes_distinct r hr r' hr' ((beq_iff_eq.mp h).symm.trans (beq_iff_eq.mp h'))

/-- A property of the rows with the opcode of a word is a property of the one row with that opcode. -/
theorem any_sameOpcode {r : OpcodeRow} (hr : r ∈ opcodeTable) {c : Cmd} (h : r.sameOpcode c = true)
    (p : OpcodeRow → Bool) : opcodeTable.any (fun r' => r'.sameOpcode c && p r') = p r := by
  rw [Bool.eq_iff_iff, List.any_eq_true]
  constructor
  · rintro ⟨r', hr', hp⟩
    obtain ⟨h', hp⟩ := Bool.and_eq_true_iff.mp hp
    rwa [eq_of_sameOpcode hr hr' h h']
  · exact fun hp => ⟨r, hr, Bool.and_eq_true_iff.mpr ⟨h, hp⟩⟩

/-! ### The decoder and the table (R72) -/

/-- A word that decodes is its command's encoding, so it selects the row of its command. -/
theorem selects_of_decode {c : Cmd} {i : Instr} (h : decode c = .command i) :
    ∃ r ∈ opcodeTable, r.selects c = true ∧ r.mnemonic = i.mnemonic := by
  obtain ⟨r, hr, hname, hsel⟩ := encodesIntoRow i
  rw [eachCommandHasOneEncoding c i h] at hsel
  exact ⟨r, hr, hsel, hname⟩

theorem illegal_iff_wellFormedWord (c : Cmd) : (∃ why, decode c = .illegal why) ↔ wellFormedWord c = false := by
  constructor
  · rintro ⟨why, h⟩
    exact wellFormedWord_of_illegal h
  · intro h
    cases hd : decode c with
    | illegal why => exact ⟨why, rfl⟩
    | command i =>
      obtain ⟨r, hr, hsel, -⟩ := selects_of_decode hd
      exact absurd (List.any_eq_true.mpr ⟨r, hr, hsel⟩) (Bool.eq_false_iff.mp h)

/-- Settles O4: a legal word is an encoding, which selects its command's row; a word that selects a row is legal; two rows
that one word selects have its opcode. -/
theorem decoderAgreesWithOpcodeTable : Obligations.DecoderAgreesWithOpcodeTable := by
  refine ⟨fun c i => selects_of_decode, fun c => ?_, fun c r hr r' hr' h h' => ?_⟩
  · rw [illegal_iff_wellFormedWord, wellFormedWord, List.any_eq_false]
    simp only [Bool.not_eq_true]
  · exact eq_of_sameOpcode hr hr' (sameOpcode_of_selects hr h) (sameOpcode_of_selects hr' h')

/-! ### The three classes of illegal words (R75) -/

theorem wellFormedWord_reserved {c : Cmd} (h : reservedOpcodeWord c = true) : wellFormedWord c = false := by
  rw [reservedOpcodeWord, Bool.not_eq_true', List.any_eq_false] at h
  exact List.any_eq_false.mpr fun r hr hsel => h r hr (sameOpcode_of_selects hr hsel)

/-- Of a word whose opcode has a row, that row alone says whether it is well formed and in which classes it is. -/
theorem classes_of_sameOpcode {r : OpcodeRow} (hr : r ∈ opcodeTable) {c : Cmd} (h : r.sameOpcode c = true) :
    wellFormedWord c = r.selects c ∧ reservedOpcodeWord c = false
      ∧ noRegisterWord c = (r.format.namesRegister && c &&& 0x03000000#32 == 0x03000000#32)
      ∧ nonzeroFieldWord c = (c &&& r.format.zeroBits != 0#32) := by
  refine ⟨?_, ?_, ?_, any_sameOpcode hr h _⟩
  · rw [Bool.eq_iff_iff, wellFormedWord, List.any_eq_true]
    refine ⟨?_, fun hsel => ⟨r, hr, hsel⟩⟩
    rintro ⟨r', hr', hsel⟩
    rwa [eq_of_sameOpcode hr hr' h (sameOpcode_of_selects hr' hsel)]
  · rw [reservedOpcodeWord, Bool.not_eq_false', List.any_eq_true]
    exact ⟨r, hr, h⟩
  · rw [noRegisterWord, any_sameOpcode hr h]

/-- The words that select no row are those of the three classes. -/
theorem wellFormedWord_eq_false_iff (c : Cmd) :
    wellFormedWord c = false ↔ (reservedOpcodeWord c || noRegisterWord c || nonzeroFieldWord c) = true := by
  cases hres : reservedOpcodeWord c with
  | true => simp [wellFormedWord_reserved hres]
  | false =>
    rw [reservedOpcodeWord, Bool.not_eq_false', List.any_eq_true] at hres
    obtain ⟨r, hr, hop⟩ := hres
    obtain ⟨hwf, -, hreg, hzero⟩ := classes_of_sameOpcode hr hop
    rw [hwf, hreg, hzero, selects_eq hr, hop]
    cases (r.format.namesRegister && c &&& 0x03000000#32 == 0x03000000#32) <;> simp [bne]

/-! ### An illegal word raises IllegalCommand only (R75, R153) -/

/-- What fault entry leaves is what R153 says, field by field. -/
theorem tookFault_raiseFault (k : FaultKind) (c : Cmd) (s : State) : TookFault k c s (raiseFault k c s) := by
  refine ⟨fun b hb => getLsbD_mark k s.fault hb, fun h => ?_, fun h => ?_, fun l hl => ?_, rfl⟩
  · rw [raiseFault_first h]
    exact ⟨by cases k <;> rfl, rfl⟩
  · rw [raiseFault_not_first h]
    exact ⟨rfl, rfl⟩
  · exact at_raiseFault (Bool.eq_false_of_not_eq_true hl) k c s

/-- Settles O5: a word is illegal when it selects no row, which is what the three classes say row by row; what it does is
fault entry. -/
theorem illegalWordsRaiseIllegalCommandOnly : Obligations.IllegalWordsRaiseIllegalCommandOnly := by
  intro c
  have hclasses := (illegal_iff_wellFormedWord c).trans (wellFormedWord_eq_false_iff c)
  refine ⟨hclasses, fun s h => ?_⟩
  obtain ⟨why, hd⟩ := hclasses.mpr h
  exact ⟨_, runCommand_illegal hd s, tookFault_raiseFault .illegalCommand c s⟩

end Sys2Proof.Machine
end

section
/-! The assembler (R78, R79): which statements it refuses, what words it gives, and the pseudo-instructions. -/

namespace Sys2Proof.Machine

/-! ### The worked lines (R78) -/

/-- Settles O53: the text of the table is a closed term, which the assembler evaluates. -/
theorem workedLinesAssembleToTheirWords : Obligations.WorkedLinesAssembleToTheirWords := by
  unfold Obligations.WorkedLinesAssembleToTheirWords
  decide

/-! ### Core statements (R74, R78) -/

theorem regOperand_of_lt {w : Nat} (h : w < 3) : regOperand w = some ⟨w, h⟩ := dif_pos h

theorem numOperand_of_lt {k v : Nat} (h : v < 2 ^ k) : numOperand k v = some (BitVec.ofNat k v) := if_pos h

theorem stb_wellFormed {a d : Nat} (ha : a < 16) (hd : d < 256) : (Stmt.stb a d).wellFormed = true := by
  simp [Stmt.wellFormed, ha, hd]

theorem stb_instr {a d : Nat} (ha : a < 16) (hd : d < 256) :
    (Stmt.stb a d).instr = some (.stb (BitVec.ofNat 4 a) (BitVec.ofNat 8 d)) := by
  simp [Stmt.instr, numOperand_of_lt, ha, hd]

theorem instr_of_wellFormed {st : Stmt} (h : st.wellFormed = true) (hcore : st.expand = [st]) :
    ∃ i, st.instr = some i := by
  cases st with
  | nop | ser => exact ⟨_, rfl⟩
  | tofsd | altd | alte | stg => simp [Stmt.expand] at hcore
  | _ => simp_all [Stmt.wellFormed, Stmt.instr, regOperand_of_lt, numOperand_of_lt]

/-- The statements that a well-formed one stands for are well formed, and stand for themselves. -/
theorem wellFormed_of_mem_expand {st core : Stmt} (h : st.wellFormed = true) (hc : core ∈ st.expand) :
    core.wellFormed = true ∧ core.expand = [core] := by
  cases st with
  | stg g hi lo crc =>
    simp only [Stmt.wellFormed, Bool.and_eq_true, decide_eq_true_eq] at h
    obtain ⟨⟨⟨hg, hhi⟩, hlo⟩, hcrc⟩ := h
    simp only [Stmt.expand, List.mem_cons, List.not_mem_nil, or_false] at hc
    rcases hc with rfl | rfl | rfl
    · exact ⟨stb_wellFormed (by omega) hhi, rfl⟩
    · exact ⟨stb_wellFormed (by omega) hlo, rfl⟩
    · exact ⟨stb_wellFormed (by omega) hcrc, rfl⟩
  | _ =>
    obtain rfl := List.mem_singleton.mp hc
    exact ⟨h, rfl⟩

/-! ### The words of a statement (R78) -/

theorem encodeCore_cons {st : Stmt} {i : Instr} {sts : List Stmt} {cs : List Cmd} (h : st.instr = some i)
    (hs : encodeCore sts = some cs) : encodeCore (st :: sts) = some (encode i :: cs) := by
  rw [encodeCore, h, hs]

theorem encodeCore_of_instr {sts : List Stmt} (h : ∀ st ∈ sts, ∃ i, st.instr = some i) :
    ∃ is : List Instr, encodeCore sts = some (is.map encode) := by
  induction sts with
  | nil => exact ⟨[], rfl⟩
  | cons st sts ih =>
    obtain ⟨⟨i, hi⟩, hsts⟩ := List.forall_mem_cons.mp h
    obtain ⟨is, his⟩ := ih hsts
    exact ⟨i :: is, encodeCore_cons hi his⟩

theorem assemble_of_not_wellFormed {st : Stmt} (h : st.wellFormed = false) : assemble st = none := by
  simp [assemble, h]

theorem assemble_of_wellFormed {st : Stmt} (h : st.wellFormed = true) : assemble st = encodeCore st.expand := if_pos h

/-- A well-formed statement has words, each the encoding of a command. -/
theorem assemble_encodings {st : Stmt} (h : st.wellFormed = true) :
    ∃ is : List Instr, assemble st = some (is.map encode) := by
  rw [assemble_of_wellFormed h]
  refine encodeCore_of_instr fun core hc => ?_
  obtain ⟨hwf, hcore⟩ := wellFormed_of_mem_expand h hc
  exact instr_of_wellFormed hwf hcore

/-- Settles O54: by whether the statement is well formed; the words are encodings, which decode. -/
theorem assemblerRefusesExactlyWhatDoesNotFit : Obligations.AssemblerRefusesExactlyWhatDoesNotFit := by
  intro st
  cases h : st.wellFormed with
  | false =>
    have hnone : assemble st = none := assemble_of_not_wellFormed h
    exact ⟨iff_of_true hnone rfl, fun ws hws => (nomatch hnone.symm.trans hws)⟩
  | true =>
    obtain ⟨is, his⟩ := assemble_encodings h
    refine ⟨iff_of_false (by simp [his]) (by simp), fun ws hws c hc => ?_⟩
    obtain rfl : is.map encode = ws := Option.some.inj (his.symm.trans hws)
    obtain ⟨i, -, rfl⟩ := List.mem_map.mp hc
    exact ⟨i, decode_encode i⟩

/-! ### STG loads one received group (R79) -/

theorem assemble_stb {a d : Nat} (ha : a < 16) (hd : d < 256) :
    assemble (.stb a d) = some [encode (.stb (BitVec.ofNat 4 a) (BitVec.ofNat 8 d))] := by
  rw [assemble_of_wellFormed (stb_wellFormed ha hd)]
  exact encodeCore_cons (stb_instr ha hd) rfl

theorem assemble_stg {g h l c : Nat} (hg : g < 3) (hh : h < 256) (hl : l < 256) (hc : c < 256) :
    assemble (.stg g h l c) = some
      [encode (.stb (BitVec.ofNat 4 (3 * g)) (BitVec.ofNat 8 h)),
       encode (.stb (BitVec.ofNat 4 (3 * g + 1)) (BitVec.ofNat 8 l)),
       encode (.stb (BitVec.ofNat 4 (3 * g + 2)) (BitVec.ofNat 8 c))] := by
  rw [assemble_of_wellFormed (by simp [Stmt.wellFormed, hg, hh, hl, hc])]
  exact encodeCore_cons (stb_instr (by omega) hh)
    (encodeCore_cons (stb_instr (by omega) hl) (encodeCore_cons (stb_instr (by omega) hc) rfl))

theorem runCommand_stb {a : Nat} (ha : a < 9) (d : Byte) (s : State) :
    runCommand (encode (.stb (BitVec.ofNat 4 a) d)) s = .next { s with buf := s.buf.write a d } := by
  have haddr : (BitVec.ofNat 4 a).toNat = a := BitVec.toNat_ofNat a 4 ▸ Nat.mod_eq_of_lt (by omega)
  rw [runCommand_command (decode_encode _)]
  exact (execStb_exists (by omega) d s).trans (by rw [haddr])

/-- The buffer with the three bytes of group `g` written. `runCommands_stg` ties it to the words of STG. -/
def groupWritten (g : RegIdx) (h l c : Byte) (m : Memory) : Memory :=
  ((m.write (3 * g.val) h).write (3 * g.val + 1) l).write (3 * g.val + 2) c

theorem runCommands_stg (g : RegIdx) (h l c : Byte) (s : State) :
    ∃ ws, assemble (.stg g.val h.toNat l.toNat c.toNat) = some ws
      ∧ runCommands ws s = .next { s with buf := groupWritten g h l c s.buf } := by
  refine ⟨_, assemble_stg g.isLt h.isLt l.isLt c.isLt, ?_⟩
  simp only [BitVec.ofNat_toNat, BitVec.setWidth_eq]
  rw [runCommands_cons (runCommand_stb (by omega) h _), runCommands_cons (runCommand_stb (by omega) l _),
    runCommands_cons (runCommand_stb (by omega) c _)]
  rfl

theorem read_groupWritten_bytes (g : RegIdx) (h l c : Byte) (m : Memory) :
    (groupWritten g h l c m).read (3 * g.val) = h ∧ (groupWritten g h l c m).read (3 * g.val + 1) = l
      ∧ (groupWritten g h l c m).read (3 * g.val + 2) = c := by
  simp [groupWritten, Memory.read_write]

theorem read_groupWritten_other {g : RegIdx} {a : Nat} (ha : ¬ (3 * g.val ≤ a ∧ a < 3 * g.val + 3)) (h l c : Byte)
    (m : Memory) : (groupWritten g h l c m).read a = m.read a := by
  rw [groupWritten, Memory.read_write_other _ _ (by omega), Memory.read_write_other _ _ (by omega),
    Memory.read_write_other _ _ (by omega)]

/-- Settles O55: the first three expansions are the assembler's own; STG and its three STB have the same words, and these
are three stores at addresses that exist. -/
theorem pseudoInstructionsStandForTheirExpansions : Obligations.PseudoInstructionsStandForTheirExpansions := by
  refine ⟨fun _ => rfl, fun _ => rfl, fun _ _ => rfl, fun g h l c hg hh hl hc => ?_, fun g h l c s => ?_⟩
  · rw [assemble_stg hg hh hl hc]
    simp [assembleAll, assemble_stb (show 3 * g < 16 by omega) hh, assemble_stb (show 3 * g + 1 < 16 by omega) hl,
      assemble_stb (show 3 * g + 2 < 16 by omega) hc]
  · obtain ⟨ws, hws, hrun⟩ := runCommands_stg g h l c s
    obtain ⟨hh, hl, hc⟩ := read_groupWritten_bytes g h l c s.buf
    refine ⟨ws, _, hws, hrun, hh, hl, hc, fun x hx => at_setBuf fun a ha => ?_, rfl⟩
    exact read_groupWritten_other (fun hin => hx ⟨a, ha, hin⟩) h l c s.buf

end Sys2Proof.Machine
end

section
/-! The CRC engine (R100 to R104). One shift step puts the tested high bit into bit 0, because the polynomial is odd, so
no step loses a bit: the shift steps are injective and keep zero, which gives R104 (e) and (f). On numbers each step is
the document's own, and one byte step is one look-up in the table of V14. -/

namespace Sys2Proof.Machine

/-! ### The two bytes of a word -/

theorem toNat_highByte (w : Word) : (highByte w).toNat = w.toNat / 256 := by
  rw [highByte, BitVec.extractLsb'_toNat, Nat.shiftRight_eq_div_pow]
  omega

theorem toNat_lowByte (w : Word) : (lowByte w).toNat = w.toNat % 256 := by
  rw [lowByte, BitVec.extractLsb'_toNat, Nat.shiftRight_zero]

@[simp] theorem highByte_append (hi lo : Byte) : highByte (hi ++ lo) = hi := BitVec.extractLsb'_append_eq_left

@[simp] theorem lowByte_append (hi lo : Byte) : lowByte (hi ++ lo) = lo := BitVec.extractLsb'_append_eq_right

theorem crc8_append (hi lo : Byte) : crc8 (hi ++ lo) = crcByte (crcByte Config.crcInit hi) lo := by
  rw [crc8, highByte_append, lowByte_append]

/-! ### The shift steps lose nothing -/

theorem crcBit_of_high {a : Byte} (h : a.getLsbD 7 = true) : crcBit a = (a <<< 1) ^^^ Config.crcPoly := if_pos h

theorem crcBit_of_not_high {a : Byte} (h : a.getLsbD 7 = false) : crcBit a = a <<< 1 := by
  rw [crcBit, h, if_neg Bool.false_ne_true]

/-- The polynomial is odd, so the high bit that the shift drops is kept in bit 0. -/
theorem getLsbD_zero_crcBit (a : Byte) : (crcBit a).getLsbD 0 = a.getLsbD 7 := by
  cases h : a.getLsbD 7 with
  | true => simp [crcBit_of_high h, Config.crcPoly]
  | false => simp [crcBit_of_not_high h]

theorem shiftLeft_eq_of_crcBit_eq {a b : Byte} (h : crcBit a = crcBit b) (htop : a.getLsbD 7 = b.getLsbD 7) :
    a <<< 1 = b <<< 1 := by
  cases ha : a.getLsbD 7 with
  | true => rwa [crcBit_of_high ha, crcBit_of_high (htop.symm.trans ha), BitVec.xor_left_inj] at h
  | false => rwa [crcBit_of_not_high ha, crcBit_of_not_high (htop.symm.trans ha)] at h

theorem crcBit_injective : Function.Injective crcBit := by
  intro a b h
  have htop : a.getLsbD 7 = b.getLsbD 7 := by rw [← getLsbD_zero_crcBit, h, getLsbD_zero_crcBit]
  have hshift : a <<< 1 = b <<< 1 := shiftLeft_eq_of_crcBit_eq h htop
  refine BitVec.eq_of_getLsbD_eq fun i hi => ?_
  obtain rfl | hlow : i = 7 ∨ i + 1 < 8 := by omega
  · exact htop
  · simpa [hlow, BitVec.getLsbD_eq_getElem hi] using congrArg (·.getLsbD (i + 1)) hshift

theorem crcSteps_injective (n : Nat) : Function.Injective (crcSteps n) := by
  induction n with
  | zero => exact Function.injective_id
  | succ n ih => exact ih.comp crcBit_injective

theorem crcSteps_zero (n : Nat) : crcSteps n 0#8 = 0#8 := by
  induction n with
  | zero => rfl
  | succ n ih => exact ih

/-! ### The byte step is a bijection in each operand, and zero on equal operands only (R104 (e), (f)) -/

theorem crcByte_right_injective (a : Byte) : Function.Injective (crcByte a) :=
  fun _ _ h => (BitVec.xor_right_inj a).mp (crcSteps_injective 8 h)

theorem crcByte_left_injective (b : Byte) : Function.Injective (crcByte · b) :=
  fun _ _ h => (BitVec.xor_left_inj b).mp (crcSteps_injective 8 h)

theorem crcByte_eq_zero_iff (a b : Byte) : crcByte a b = 0#8 ↔ a = b := by
  calc crcByte a b = 0#8
    _ ↔ crcSteps 8 (a ^^^ b) = crcSteps 8 0#8 := by rw [crcSteps_zero, crcByte]
    _ ↔ a ^^^ b = 0#8 := (crcSteps_injective 8).eq_iff
    _ ↔ a = b := BitVec.xor_eq_zero_iff

/-- Settles O22: the byte step is injective in each operand, and a byte has finitely many values. -/
theorem checksumIsBijectiveInEachByte : Obligations.ChecksumIsBijectiveInEachByte := by
  simp only [Obligations.ChecksumIsBijectiveInEachByte, crc8_append]
  refine ⟨fun hi => ?_, fun lo => ?_⟩
  · exact (crcByte_right_injective _).bijective_of_finite
  · exact ((crcByte_left_injective lo).comp (crcByte_right_injective Config.crcInit)).bijective_of_finite

/-- Settles O23: a byte step ends at zero only when the byte is the accumulator. -/
theorem engineOverWholeGroupIsZeroIffItsCrcIsRight : Obligations.EngineOverWholeGroupIsZeroIffItsCrcIsRight :=
  fun w c => (crcByte_eq_zero_iff (crc8 w) c).trans eq_comm

/-! ### The engine on numbers (R100 to R103) -/

theorem toNat_crcInit : Config.crcInit.toNat = 0xFF := rfl

theorem toNat_shiftLeft_one (a : Byte) : (a <<< 1).toNat = 2 * a.toNat % 256 := by
  rw [BitVec.toNat_shiftLeft, Nat.shiftLeft_eq, Nat.mul_comm]

theorem toNat_crcBit (a : Byte) : (crcBit a).toNat = Doc.crcBit a.toNat := by
  have hmsb : a.getLsbD 7 = decide (128 ≤ a.toNat) := BitVec.msb_eq_decide a
  by_cases h : 128 ≤ a.toNat
  · rw [crcBit_of_high (by simpa [h] using hmsb), BitVec.toNat_xor, toNat_shiftLeft_one, Doc.crcBit, if_pos h]
    rfl
  · rw [crcBit_of_not_high (by simpa [h] using hmsb), toNat_shiftLeft_one, Doc.crcBit, if_neg h]
    omega

theorem toNat_crcByte (a b : Byte) : (crcByte a b).toNat = Doc.crcByte a.toNat b.toNat := by
  simp only [crcByte, crcSteps, toNat_crcBit, BitVec.toNat_xor, Doc.crcByte]

theorem toNat_crc8 (w : Word) : (crc8 w).toNat = Doc.crc8 w.toNat := by
  rw [crc8, toNat_crcByte, toNat_crcByte, toNat_highByte, toNat_lowByte, toNat_crcInit, Doc.crc8]

/-- Settles O20: CRC8 writes the engine's checksum, which on numbers is the document's. -/
theorem crcCommandLeavesTheDocumentsChecksum : Obligations.CrcCommandLeavesTheDocumentsChecksum := by
  intro i s
  have hdoc : BitVec.ofNat 8 (Doc.crc8 (s.readW i).toNat) = crc8 (s.readW i) := by
    rw [← toNat_crc8, BitVec.ofNat_toNat, BitVec.setWidth_eq]
  rw [hdoc]
  exact exec_of_no_fault (faultOfWord_encode (.crc8 i)) s

/-! ### The table of V14 (R104 (d)) -/

/-- The 256 entries of V14 against the 256 byte steps from a zero accumulator: a finite fact, so it is evaluated. -/
theorem crcTable_eq_map : Doc.crcTable = (List.range 256).map (Doc.crcByte 0) := by decide +kernel

theorem crcTable_getD {x : Nat} (h : x < 256) : Doc.crcTable.getD x 0 = Doc.crcByte 0 x := by
  simp [crcTable_eq_map, List.getD_eq_getElem?_getD, h]

theorem docCrcByte_eq_zero_xor (a b : Nat) : Doc.crcByte a b = Doc.crcByte 0 (a ^^^ b) := by
  simp only [Doc.crcByte, Nat.zero_xor]

theorem toNat_crcByte_eq_lookup (a b : Byte) : (crcByte a b).toNat = Doc.crcTable.getD (a.toNat ^^^ b.toNat) 0 := by
  rw [toNat_crcByte, docCrcByte_eq_zero_xor, crcTable_getD (Nat.xor_lt_two_pow (n := 8) a.isLt b.isLt)]

/-- Settles O21: each of the two byte steps is one look-up. -/
theorem checksumIsTheSpecsTableLookup : Obligations.ChecksumIsTheSpecsTableLookup := by
  intro w
  rw [crc8, toNat_crcByte_eq_lookup, toNat_crcByte_eq_lookup, toNat_highByte, toNat_lowByte, toNat_crcInit]

end Sys2Proof.Machine
end

section
/-! The word codec (R110 to R113). PACK and UNPACK never fault, so each is its effect: PACK leaves a correct group of its
word, and UNPACK reads each of its groups from the buffer as it was, with a flag that says whether the group is correct. -/

namespace Sys2Proof.Machine

/-! ### PACK writes a correct group (R110) -/

theorem exec_pack (i : RegIdx) (s : State) : exec (.pack i) s = .next (effect (.pack i) s) :=
  exec_of_no_fault (faultOfWord_encode (.pack i)) s

/-- The k-th byte that PACK writes is the k-th byte of the group of its word. -/
theorem readByte_pack (i : RegIdx) (s : State) {k : Nat} (hk : k < 3) :
    (effect (.pack i) s).readByte (3 * i.val + k) = (groupOf (s.readW i)).extractLsb' (8 * (2 - k)) 8 :=
  Memory.read_memWrite s.buf (3 * i.val) 3 (groupOf (s.readW i)) k hk

theorem readByte_pack_bytes (i : RegIdx) (s : State) :
    (effect (.pack i) s).readByte (3 * i.val) = highByte (s.readW i)
      ∧ (effect (.pack i) s).readByte (3 * i.val + 1) = lowByte (s.readW i)
      ∧ (effect (.pack i) s).readByte (3 * i.val + 2) = crc8 (s.readW i) := by
  obtain ⟨hhigh, hlow, hcrc⟩ := groupOf_bytes (s.readW i)
  exact ⟨(readByte_pack i s (k := 0) (by decide)).trans hhigh, (readByte_pack i s (by decide)).trans hlow,
    (readByte_pack i s (by decide)).trans hcrc⟩

/-- Settles O24: the bytes of the group are those of the word and its checksum, and MemWrite writes no others. -/
theorem packWritesTheGroupOfItsWord : Obligations.PackWritesTheGroupOfItsWord := by
  intro i s
  obtain ⟨hhigh, hlow, hcrc⟩ := readByte_pack_bytes i s
  refine ⟨groupAddr_val i, _, exec_pack i s, ?_, ?_, hcrc, ?_, ?_⟩
  · exact (congrArg BitVec.toNat hhigh).trans (toNat_highByte _)
  · exact (congrArg BitVec.toNat hlow).trans (toNat_lowByte _)
  · exact Memory.read_memWrite_other s.buf (groupAddr i) 3 _
  · exact ⟨fun l hl => at_setBuf fun a ha => absurd ⟨a, ha⟩ hl, rfl⟩

/-! ### UNPACK reads each group and checks it (R111) -/

theorem exec_unpack (n : BitVec 2) (s : State) : exec (.unpack n) s = .next (effect (.unpack n) s) :=
  exec_of_no_fault (faultOfWord_encode (.unpack n)) s

theorem readW_unpack {n : BitVec 2} {i : RegIdx} (hi : i.val < n.toNat) (s : State) :
    (effect (.unpack n) s).readW i = s.readByte (3 * i.val) ++ s.readByte (3 * i.val + 1) := by
  rw [effect, readW_unpackGroups, if_pos ((mem_groupsBelow n i).mpr hi), groupWord_bytes]

/-- UNPACK sets the flag of a group exactly when the checksum of the word it gives differs from the group's third byte. -/
theorem ck_unpack {n : BitVec 2} {i : RegIdx} (hi : i.val < n.toNat) (s : State) :
    (effect (.unpack n) s).ck i = true ↔ crc8 ((effect (.unpack n) s).readW i) ≠ s.readByte (3 * i.val + 2) :=
  (ck_effect_of_written (by simpa using hi) s).trans (and_iff_right ⟨n, rfl⟩)

/-- Settles O25: the groups below n are read and checked, and UNPACK's effect is on the words and flags below n only. -/
theorem unpackReadsTheFirstGroups : Obligations.UnpackReadsTheFirstGroups := by
  intro n s
  refine ⟨_, exec_unpack n s, fun i hi => ⟨?_, ck_unpack hi s⟩, fun i hi => ?_, fun l hl => ?_, effect_inputs _ s⟩
  · rw [readW_unpack hi, toNat_append_add]
    omega
  · have hw : writesPlace (.unpack n) (.w i) = false := by simpa using hi
    exact ⟨readW_eq_of_at (effect_at_of_not_written hw s),
      ck_eq_of_at (effect_at_of_not_written ((writesPlace_ck _ i).trans hw) s)⟩
  · refine effect_at_of_not_written ?_ s
    cases l with
    | w i => simpa using hl
    | ck i => simpa using hl
    | _ => rfl

/-! ### The round trip (R112) -/

theorem highByte_append_lowByte (w : Word) : highByte w ++ lowByte w = w := by
  refine BitVec.eq_of_toNat_eq ?_
  rw [toNat_append_add, toNat_highByte, toNat_lowByte]
  omega

/-- Settles O26: the group that PACK leaves holds the bytes of the word, and its checksum is that word's. -/
theorem packThenUnpackReturnsTheWord : Obligations.PackThenUnpackReturnsTheWord := by
  intro i n s hi
  obtain ⟨hhigh, hlow, hcrc⟩ := readByte_pack_bytes i s
  have hword : (effect (.unpack n) (effect (.pack i) s)).readW i = s.readW i := by
    rw [readW_unpack hi, hhigh, hlow, highByte_append_lowByte]
  refine ⟨_, _, exec_pack i s, exec_unpack n _, hword, Bool.eq_false_of_not_eq_true fun hck => ?_⟩
  exact (ck_unpack hi _).mp hck (by rw [hword, hcrc])

/-! ### One changed byte is detected (R113) -/

theorem exec_stb_ofNat {a : Nat} (ha : a < 9) (d : Byte) (s : State) :
    exec (.stb (BitVec.ofNat 4 a) d) s = .next { s with buf := s.buf.write a d } :=
  (runCommand_command (decode_encode _) s).symm.trans (runCommand_stb ha d s)

/-- A correct group with one byte stored over is correct only if the stored byte is the one that stood there: the checksum
is injective in each byte of the word, and the third byte is compared itself. -/
theorem eq_of_correct_after_write {m : Memory} {a j : Nat} {d : Byte} (hj : j < 3)
    (hok : crc8 (m.read a ++ m.read (a + 1)) = m.read (a + 2))
    (hok' : crc8 ((m.write (a + j) d).read a ++ (m.write (a + j) d).read (a + 1)) = (m.write (a + j) d).read (a + 2)) :
    d = m.read (a + j) := by
  obtain ⟨hlow, hhigh⟩ := checksumIsBijectiveInEachByte
  obtain rfl | rfl | rfl : j = 0 ∨ j = 1 ∨ j = 2 := by omega
  · have hsame : crc8 (d ++ m.read (a + 1)) = crc8 (m.read a ++ m.read (a + 1)) := by
      simpa [Memory.read_write, hok] using hok'
    exact (hhigh _).injective hsame
  · have hsame : crc8 (m.read a ++ d) = crc8 (m.read a ++ m.read (a + 1)) := by
      simpa [Memory.read_write, hok] using hok'
    exact (hlow _).injective hsame
  · simpa [Memory.read_write, hok] using hok'.symm

/-- Settles O27: with its flag clear the changed group would be correct, so the stored byte would be the old one. -/
theorem unpackDetectsOneChangedByte : Obligations.UnpackDetectsOneChangedByte := by
  intro i n j d s hi hj hok hd
  refine ⟨_, _, exec_stb_ofNat (by omega) d s, exec_unpack n _, (ck_unpack hi _).mpr fun hok' => hd ?_⟩
  rw [readW_unpack hi] at hok'
  exact eq_of_correct_after_write hj hok hok'

end Sys2Proof.Machine
end

section
/-! The unit converter (R120 to R136). Only the encoders fault, on an operand whose code does not fit a word.
Otherwise a converter is its effect: a result that is exact as a number, or a loaded word. No command reads a flag
(R135). -/

namespace Sys2Proof.Machine

/-! ### CO2, TEMP, RH: exact signed results (R120 to R124) -/

theorem toInt_co2Result (w : Word) : (w.setWidth 32).toInt = w.toNat := by
  rw [BitVec.toInt_setWidth]
  exact Int.bmod_eq_of_le (by omega) (by omega)

theorem toInt_tempResult (w : Word) : (BitVec.ofInt 32 (tempQ16 w)).toInt = 175 * (w.toNat : Int) - 2949120 := by
  rw [BitVec.toInt_ofInt, tempQ16_eq]
  exact Int.bmod_eq_of_le (by omega) (by omega)

theorem toInt_humidityResult (w : Word) : (BitVec.ofNat 32 (humidityQ16 w)).toInt = 100 * (w.toNat : Int) := by
  rw [BitVec.toInt_ofNat', humidityQ16_eq]
  exact Int.bmod_eq_of_le (by omega) (by omega)

theorem exec_temp (i : RegIdx) (s : State) :
    exec (.temp i) s = .next { s with res := BitVec.ofInt 32 (tempQ16 (s.readW i)) } :=
  exec_of_no_fault (faultOfWord_encode (.temp i)) s

/-- Settles O28: a word extended by zeros is its number, which is below the sign bit of RES. -/
theorem co2DeliversTheWordAsItIs : Obligations.Co2DeliversTheWordAsItIs :=
  fun i s => ⟨_, exec_of_no_fault (faultOfWord_encode (.co2 i)) s, toInt_co2Result _⟩

/-- Settles O29: the formula's value fits RES for every word, and the rest is arithmetic on that value. -/
theorem tempIsExactInQ16 : Obligations.TempIsExactInQ16 := by
  intro i s
  have hvalue := toInt_tempResult (s.readW i)
  refine ⟨_, exec_temp i s, hvalue, ?_, by omega, by omega, by omega, by omega⟩
  rw [hvalue]
  push_cast
  ring

/-- Settles O30: as for the temperature; the greatest word is 65535. -/
theorem humidityIsExactInQ16 : Obligations.HumidityIsExactInQ16 := by
  intro i s
  have hvalue := toInt_humidityResult (s.readW i)
  refine ⟨_, exec_of_no_fault (faultOfWord_encode (.rh i)) s, hvalue, ?_, by omega, by omega, ?_⟩
  · rw [hvalue]
    push_cast
    rfl
  · rw [div_lt_iff₀ (by norm_num)]
    exact_mod_cast (by omega : (BitVec.ofNat 32 (humidityQ16 (s.readW i))).toInt < 100 * 65536)

/-! ### TOFSE and PRESE: the loaded word (R126, R130) -/

theorem toNat_readW_loadW {n : Nat} (hn : n ≤ 65535) (i : RegIdx) (s : State) :
    ((s.loadW i (BitVec.ofNat 16 n)).readW i).toNat = n := by
  rw [readW_loadW, if_pos rfl, BitVec.toNat_ofNat]
  omega

theorem sameBut_loadW (s : State) (i : RegIdx) (v : Word) : SameBut (fun l => l = .w i ∨ l = .ck i) s (s.loadW i v) :=
  ⟨fun _ hl => at_loadW (fun h => hl (.inl h)) (fun h => hl (.inr h)) s v, rfl⟩

theorem exec_tofse_fits {x : BitVec 24} (hx : x.toNat < 11468713) (i : RegIdx) (s : State) :
    exec (.tofse i x) s = .next (s.loadW i (BitVec.ofNat 16 (offsetQuotient x))) :=
  execTofse_fits ((offsetQuotient_fits x).mpr hx) s

theorem exec_prese_fits {p : BitVec 24} (hp : p.toNat < 6553600) (i : RegIdx) (s : State) :
    exec (.prese i p) s
      = .next ((s.loadW i (BitVec.ofNat 16 (pressureQuotient p))).setInex (inexactPressure p)) :=
  execPrese_fits ((pressureQuotient_fits p).mpr hp) s

/-- The word that TOFSE loads is the quotient, which fits. -/
theorem toNat_readW_tofse {x : BitVec 24} (hx : x.toNat < 11468713) (i : RegIdx) (s : State) :
    ((s.loadW i (BitVec.ofNat 16 (offsetQuotient x))).readW i).toNat = (x.toNat + 87) / 175 :=
  toNat_readW_loadW ((offsetQuotient_fits x).mpr hx) i s

/-- Rounding down after adding 87 is rounding to nearest: 175 is odd, so no quotient lies halfway. -/
theorem round_div_175 (n : Nat) : round ((n : ℚ) / 175) = ((n + 87) / 175 : Nat) := by
  have hhalf : (n : ℚ) / 175 + 1 / 2 = ((2 * n + 175 : Nat) : ℚ) / (350 : Nat) := by
    push_cast
    ring
  rw [round_eq, hhalf, Rat.floor_natCast_div_natCast]
  omega

/-! ### TOFSE and PRESE: the word of a fault (R152, R153) -/

theorem wordOf_or (op op' : BitVec 6) (idx idx' : BitVec 2) (imm imm' : BitVec 24) :
    wordOf op idx imm ||| wordOf op' idx' imm' = wordOf (op ||| op') (idx ||| idx') (imm ||| imm') := by
  have h := BitVec.or_append (x₁ := op ++ idx) (x₂ := op' ++ idx') (y₁ := imm) (y₂ := imm')
  rw [BitVec.or_append (x₁ := op)] at h
  exact h

theorem regBits_eq_wordOf (i : RegIdx) : BitVec.ofNat 32 i.val <<< 24 = wordOf 0#6 (idxOfReg i) 0#24 := by
  revert i; decide

theorem imm24_eq_wordOf (x : BitVec 24) : BitVec.ofNat 32 x.toNat = wordOf 0#6 0#2 x := by
  refine BitVec.eq_of_toNat_eq ?_
  rw [BitVec.toNat_ofNat, toNat_wordOf]
  simp only [BitVec.toNat_ofNat]
  omega

/-- A word of format I24 as the templates write it: the opcode's base, the register index and the immediate. -/
theorem wordOf_eq_wordWithReg (op : BitVec 6) (i : RegIdx) (x : BitVec 24) :
    wordOf op (idxOfReg i) x = Doc.wordWithReg (wordOf op 0#2 0#24) i x.toNat := by
  rw [Doc.wordWithReg, regBits_eq_wordOf, imm24_eq_wordOf, wordOf_or, wordOf_or]
  simp

theorem encode_tofse (i : RegIdx) (x : BitVec 24) :
    encode (.tofse i x) = Doc.wordWithReg 0x8C000000#32 i x.toNat := wordOf_eq_wordWithReg 0x23#6 i x

theorem encode_prese (i : RegIdx) (p : BitVec 24) :
    encode (.prese i p) = Doc.wordWithReg 0x90000000#32 i p.toNat := wordOf_eq_wordWithReg 0x24#6 i p

theorem exec_tofse_tooLarge {x : BitVec 24} (hx : 11468713 ≤ x.toNat) (i : RegIdx) (s : State) :
    ∃ t, exec (.tofse i x) s = .next t ∧ TookFault .rangeError (Doc.wordWithReg 0x8C000000#32 i x.toNat) s t :=
  ⟨_, execTofse_tooLarge (offsetQuotient_tooLarge hx) s, encode_tofse i x ▸ tookFault_raiseFault _ _ s⟩

theorem exec_prese_tooLarge {p : BitVec 24} (hp : 6553600 ≤ p.toNat) (i : RegIdx) (s : State) :
    ∃ t, exec (.prese i p) s = .next t ∧ TookFault .rangeError (Doc.wordWithReg 0x90000000#32 i p.toNat) s t :=
  ⟨_, execPrese_tooLarge (pressureQuotient_tooLarge hp) s, encode_prese i p ▸ tookFault_raiseFault _ _ s⟩

/-- Settles O31: by whether the quotient fits a word; the quotient is the nearest integer. -/
theorem offsetEncoderRoundsToNearest : Obligations.OffsetEncoderRoundsToNearest := by
  refine ⟨fun i x s hx => ?_, fun i x s hx => ⟨offsetQuotient_tooLarge hx, exec_tofse_tooLarge hx i s⟩⟩
  have hword := toNat_readW_tofse hx i s
  refine ⟨_, exec_tofse_fits hx i s, hword, ?_, by simp [ck_loadW], sameBut_loadW s i _⟩
  rw [hword, div_mul_cancel₀ _ (by norm_num), round_div_175]

/-- Settles O32: TEMP multiplies the quotient by 175 again, so what is lost is the rounding of the quotient. -/
theorem offsetEncodeThenDecodeKeepsTheBias : Obligations.OffsetEncodeThenDecodeKeepsTheBias := by
  refine ⟨fun i x s hx => ?_, fun i s hzero => ?_⟩
  · have hres := toInt_tempResult ((s.loadW i (BitVec.ofNat 16 (offsetQuotient x))).readW i)
    rw [toNat_readW_tofse hx] at hres
    refine ⟨_, _, exec_tofse_fits hx i s, exec_temp i _, ?_, ?_⟩
    · rw [hres]; omega
    · rw [hres]; omega
  · refine ⟨_, exec_temp i s, ?_⟩
    rw [toInt_tempResult, hzero]
    norm_num

theorem sameBut_prese (s : State) (i : RegIdx) (v : Word) (b : Bool) :
    SameBut (fun l => l = .w i ∨ l = .ck i ∨ l = .inex) s ((s.loadW i v).setInex b) := by
  refine ⟨fun l hl => ?_, rfl⟩
  obtain ⟨hw, hck, hinex⟩ : l ≠ .w i ∧ l ≠ .ck i ∧ l ≠ .inex := by simpa only [not_or] using hl
  exact (at_setInex hinex _ b).trans (at_loadW hw hck s v)

/-- Settles O33: by whether the quotient fits a word; the quotient is the floor, and INEX says
whether there is a remainder. -/
theorem pressureEncoderTruncatesAndSaysSo : Obligations.PressureEncoderTruncatesAndSaysSo := by
  refine ⟨fun i p s hp => ?_, fun i p s hp => ⟨pressureQuotient_tooLarge hp, exec_prese_tooLarge hp i s⟩⟩
  refine ⟨_, exec_prese_fits hp i s, ?_, by simp [ck_loadW], ?_, sameBut_prese s i _ _⟩
  · rw [readW_setInex, toNat_readW_loadW ((pressureQuotient_fits p).mpr hp)]
    exact (Rat.floor_natCast_div_natCast p.toNat 100).symm
  · rw [inex_setInex, inexactPressure_eq, bne_iff_ne, Nat.dvd_iff_mod_eq_zero]

/-! ### FRC (R132) -/

theorem toInt_correctionResult (w : Word) : (BitVec.ofInt 32 (correction w)).toInt = (w.toNat : Int) - 0x8000 := by
  rw [BitVec.toInt_ofInt, correction_eq]
  exact Int.bmod_eq_of_le (by omega) (by omega)

theorem sameBut_frc (s : State) (b : Bool) (v : BitVec 32) :
    SameBut (fun l => l = .calf ∨ l = .res) s { s.setCalf b with res := v } := by
  refine ⟨fun l hl => ?_, rfl⟩
  obtain ⟨hcalf, hres⟩ := not_or.mp hl
  exact (at_setRes hres (s.setCalf b) v).trans (at_setCalf hcalf s b)

/-- Settles O34: by whether the word is the failure response, which is the greatest word. -/
theorem recalibrationResultOrFailure : Obligations.RecalibrationResultOrFailure := by
  intro i s
  have hsentinel : s.readW i = 0xFFFF#16 ↔ (s.readW i).toNat = 65535 := BitVec.toNat_inj.symm
  refine ⟨fun hw => ?_, fun hw => ?_, by rw [hsentinel]; omega⟩
  · exact ⟨_, execFrc_failed hw, calf_setCalf s true, fun _ hl => at_setCalf hl s true, rfl⟩
  · have hvalue := toInt_correctionResult (s.readW i)
    have hlt : (s.readW i).toNat ≠ 65535 := mt hsentinel.mpr hw
    have hrange : -32768 ≤ (BitVec.ofInt 32 (correction (s.readW i))).toInt
        ∧ (BitVec.ofInt 32 (correction (s.readW i))).toInt ≤ 32766 := by omega
    obtain ⟨hlow, hhigh⟩ := hrange
    exact ⟨_, execFrc_ok hw, calf_setCalf s false, hvalue, hlow, hhigh, sameBut_frc s false _⟩

/-! ### SER (R134) -/

/-- Settles O35: each concatenation shifts the words before it by sixteen places. -/
theorem serialNumberConcatenatesTheWords : Obligations.SerialNumberConcatenatesTheWords := by
  intro s
  refine ⟨_, exec_of_no_fault (faultOfWord_encode .ser) s, ?_⟩
  rw [toNat_append_add, toNat_append_add]
  omega

/-! ### DRDY (R136) -/

theorem getLsbD_readyMask (k : Nat) : (0x07FF#16).getLsbD k = decide (k < 11) := by
  by_cases hk : k < 16
  · revert k; decide
  · rw [BitVec.getLsbD_of_ge _ _ (by omega)]
    simp; omega

theorem dataReady_eq_false_iff (w : Word) : dataReady w = false ↔ ∀ k, k < 11 → w.getLsbD k = false := by
  rw [dataReady_eq, bne_eq_false_iff_eq]
  constructor
  · intro hmasked k hk
    simpa [getLsbD_readyMask, hk] using congrArg (·.getLsbD k) hmasked
  · intro hlow
    refine BitVec.eq_of_getLsbD_eq fun k _ => ?_
    by_cases hk : k < 11
    · simp [hlow k hk]
    · simp [getLsbD_readyMask, hk]

/-- Settles O36: the mask keeps the low eleven bits. -/
theorem dataReadyTestsTheLowElevenBits : Obligations.DataReadyTestsTheLowElevenBits := by
  intro i s
  refine ⟨_, exec_of_no_fault (faultOfWord_encode (.drdy i)) s, fun ⟨k, hk, hbit⟩ => if_pos ?_, fun hlow => ?_⟩
  · refine Bool.eq_true_of_not_eq_false fun hready => ?_
    exact nomatch hbit.symm.trans ((dataReady_eq_false_iff _).mp hready k hk)
  · rw [(dataReady_eq_false_iff _).mpr hlow]
    rfl

/-! ### No command reads a flag (R25, R135) -/

/-- An update of FLAGS that reads none of them: each bit becomes the same whatever FLAGS was, or is kept.
`effect_withFlags` ties it to the commands. -/
def ReadsNoFlag (g : BitVec 8 → BitVec 8) : Prop :=
  ∀ b, (∀ f f', (g f).getLsbD b = (g f').getLsbD b) ∨ ∀ f, (g f).getLsbD b = f.getLsbD b

theorem readsNoFlag_id : ReadsNoFlag id := fun _ => .inr fun _ => rfl

theorem readsNoFlag_putBit {k : Nat} (hk : k < 8) (v : Bool) : ReadsNoFlag (putBit k v) := by
  intro b
  simp only [getLsbD_putBit k b v _ hk]
  by_cases hb : b = k
  · exact .inl fun _ _ => by rw [if_pos hb, if_pos hb]
  · exact .inr fun _ => if_neg hb

theorem ReadsNoFlag.comp {g g' : BitVec 8 → BitVec 8} (hg : ReadsNoFlag g) (hg' : ReadsNoFlag g') :
    ReadsNoFlag (g ∘ g') := by
  intro b
  rcases hg b with hsame | hkept
  · exact .inl fun f f' => hsame (g' f) (g' f')
  · exact (hg' b).imp (fun hsame f f' => ((hkept (g' f)).trans (hsame f f')).trans (hkept (g' f')).symm)
      fun hkept' f => (hkept (g' f)).trans (hkept' f)

theorem unpackGroups_withFlags (l : List RegIdx) (s : State) :
    ∃ g, ReadsNoFlag g
      ∧ ∀ f, l.foldl unpackGroup { s with flags := f } = { l.foldl unpackGroup s with flags := g f } := by
  induction l generalizing s with
  | nil => exact ⟨id, readsNoFlag_id, fun _ => rfl⟩
  | cons i l ih =>
    obtain ⟨g, hg, hl⟩ := ih (unpackGroup s i)
    have hck : ReadsNoFlag (putBit i.val (checksumMismatch (s.groupWord i) (s.groupCrc i))) :=
      readsNoFlag_putBit (by omega) _
    exact ⟨_, hg.comp hck, fun _ => hl _⟩

/-- With other flags a command leaves the same state but for FLAGS, which it updates without reading them. -/
theorem effect_withFlags (i : Instr) (s : State) :
    ∃ g, ReadsNoFlag g ∧ ∀ f, effect i { s with flags := f } = { effect i s with flags := g f } := by
  cases i with
  | ldw i _ | tofse i _ => exact ⟨_, readsNoFlag_putBit (by omega : i.val < 8) false, fun _ => rfl⟩
  | prese i p =>
    have hck : ReadsNoFlag (putBit i.val false) := readsNoFlag_putBit (by omega) false
    exact ⟨_, (readsNoFlag_putBit (k := 5) (by decide) (inexactPressure p)).comp hck, fun _ => rfl⟩
  | unpack n => exact unpackGroups_withFlags (groupsBelow n) s
  | frc i =>
    refine ⟨_, readsNoFlag_putBit (k := 4) (by decide) (decide (s.readW i = 0xFFFF#16)), fun f => ?_⟩
    have hread : { s with flags := f }.readW i = s.readW i := rfl
    rw [effect, effect, hread]
    by_cases hw : s.readW i = 0xFFFF#16
    · simp only [hw, if_true, decide_true]; rfl
    · simp only [hw, if_false, decide_false]; rfl
  | _ => exact ⟨id, readsNoFlag_id, fun _ => rfl⟩

/-- Settles O37: a fault entry keeps every flag, and an effect sets each flag without reading FLAGS or keeps it. -/
theorem noCommandReadsAFlag : Obligations.NoCommandReadsAFlag := by
  intro i s t f h
  rcases exec_cases h with ⟨k, hk, rfl⟩ | ⟨hn, rfl⟩
  · exact ⟨_, exec_of_fault hk _, rfl, fun _ => .inr ⟨rfl, rfl⟩⟩
  · obtain ⟨g, hg, hf⟩ := effect_withFlags i s
    have hs : (effect i s).flags = g s.flags := congrArg State.flags (hf s.flags)
    refine ⟨_, (exec_of_no_fault hn _).trans (congrArg _ (hf f)), rfl, fun b => ?_⟩
    rw [hs]
    exact (hg b).imp (fun hsame => hsame f s.flags) fun hkept => ⟨hkept f, hkept s.flags⟩

end Sys2Proof.Machine
end

section
/-! The host's access commands NOP, LDW, STB, LDB (R140 to R143). STB and LDB fault on an address that does not exist, and
the fault records the word as their templates write it. Otherwise each command is its effect, on the one place it names. -/

namespace Sys2Proof.Machine

/-! ### NOP and LDW (R140, R141) -/

/-- Settles O38: NOP's effect is the state itself, and its word is an encoding, which decodes. -/
theorem nopIsTheZeroWordAndChangesNothing : Obligations.NopIsTheZeroWordAndChangesNothing :=
  ⟨exec_of_no_fault (faultOfWord_encode .nop), by decide, decode_encode .nop⟩

/-- Settles O39: LDW loads its register from no checked group, so it clears the flag. -/
theorem loadWordWritesItsRegisterAndClearsItsFlag : Obligations.LoadWordWritesItsRegisterAndClearsItsFlag :=
  fun i v s => ⟨s.loadW i v, exec_of_no_fault (faultOfWord_encode (.ldw i v)) s, by simp [readW_loadW],
    by simp [ck_loadW], sameBut_loadW s i v⟩

/-! ### STB and LDB: the word of a fault (R151, R153) -/

theorem addrBits_eq_wordOf (a : BitVec 4) :
    BitVec.ofNat 32 a.toNat <<< 8 = wordOf 0#6 0#2 (0#12 ++ a ++ 0#8) := by
  refine BitVec.eq_of_toNat_eq ?_
  rw [toNat_wordOf, toNat_append_add, toNat_append_add, BitVec.toNat_shiftLeft, Nat.shiftLeft_eq]
  simp only [BitVec.toNat_ofNat]
  omega

theorem dataBits_eq_wordOf (d : BitVec 8) : BitVec.ofNat 32 d.toNat = wordOf 0#6 0#2 (0#12 ++ 0#4 ++ d) := by
  rw [← imm24_eq_wordOf, toNat_append_add]
  simp

/-- A word of format SB or LB as the templates write it: the opcode's base, the address and the byte. -/
theorem wordOf_eq_wordWithAddr (op : BitVec 6) (a : BitVec 4) (d : BitVec 8) :
    wordOf op 0#2 (0#12 ++ a ++ d) = Doc.wordWithAddr (wordOf op 0#2 0#24) a d.toNat := by
  have himm : (0#12 ++ a ++ 0#8) ||| (0#12 ++ 0#4 ++ d) = 0#12 ++ a ++ d := by
    rw [BitVec.or_append, BitVec.or_append]
    simp
  rw [Doc.wordWithAddr, addrBits_eq_wordOf, dataBits_eq_wordOf, wordOf_or, wordOf_or]
  simp only [BitVec.or_zero, BitVec.zero_or, himm]

theorem encode_stb (a : BitVec 4) (d : BitVec 8) :
    encode (.stb a d) = Doc.wordWithAddr 0x08000000#32 a d.toNat := wordOf_eq_wordWithAddr 0x02#6 a d

theorem encode_ldb (a : BitVec 4) : encode (.ldb a) = Doc.wordWithAddr 0x0C000000#32 a 0 :=
  wordOf_eq_wordWithAddr 0x03#6 a 0#8

/-! ### STB and LDB: by whether the address exists (R142, R143) -/

theorem sameBut_storeByte (s : State) (a : Nat) (d : Byte) :
    SameBut (fun l => l = .buf a) s { s with buf := s.buf.write a d } :=
  ⟨fun _ hl => at_setBuf fun _ hb => Memory.read_write_other _ _ fun hba => hl (hba ▸ hb), rfl⟩

/-- Settles O40: at an address that exists the memory's write lemmas say what changes; at another STB is a fault entry. -/
theorem storeByteWritesItsByteOnly : Obligations.StoreByteWritesItsByteOnly := by
  refine ⟨fun a d s ha => ?_, fun a d s ha => ?_⟩
  · have hexists : a.toNat < 9 := Nat.lt_succ_of_le ha
    exact ⟨_, execStb_exists hexists d s, byteAddr_exists hexists, Memory.read_write_same _ _ _,
      fun _ hb => Memory.read_write_other _ _ hb, sameBut_storeByte s a.toNat d⟩
  · exact ⟨_, execStb_absent ha d s, encode_stb a d ▸ tookFault_raiseFault _ _ s⟩

/-- Settles O41: at an address that exists LDB reads its byte; at another it is a fault entry. -/
theorem loadByteReadsItsByte : Obligations.LoadByteReadsItsByte :=
  ⟨fun _ s ha => execLdb_exists (Nat.lt_succ_of_le ha) s,
    fun a s ha => ⟨_, execLdb_absent ha s, encode_ldb a ▸ tookFault_raiseFault _ _ s⟩⟩

end Sys2Proof.Machine
end

section
/-! The fault registers (60_exceptions.md). A command word takes its fault of the table (R150 to R152) or leaves the fault
registers, so each bit of FAULT gains just the words that fault that way, and FCAUSE and FCMD keep the first of them (R158). -/

namespace Sys2Proof.Machine

/-! ### Fault entry, and a step on an illegal word (R150, R153) -/

/-- Settles O12: fault entry read off field by field. -/
theorem faultEntryWritesOnlyTheFaultRegisters : Obligations.FaultEntryWritesOnlyTheFaultRegisters :=
  tookFault_raiseFault

/-- Settles O7: the step takes the word, and an illegal word is a fault entry. -/
theorem stepOnIllegalWordTakesIllegalCommand : Obligations.StepOnIllegalWordTakesIllegalCommand :=
  fun _ c _ _ hs hd => ⟨_, (step_of_input hs).trans (runCommand_illegal hd _), tookFault_raiseFault .illegalCommand c _⟩

/-! ### A command word takes its own fault (60_exceptions.md section 1, R156) -/

theorem runCommand_of_fault {c : Cmd} {k : FaultKind} (h : faultOfWord c = some k) (s : State) :
    runCommand c s = .next (raiseFault k c s) := by
  cases hd : decode c with
  | illegal why =>
    obtain rfl : .illegalCommand = k := Option.some.inj ((faultOfWord_illegal hd).symm.trans h)
    exact runCommand_illegal hd s
  | command i =>
    obtain rfl : encode i = c := eachCommandHasOneEncoding c i hd
    exact (runCommand_command hd s).trans (exec_of_fault h s)

theorem runCommand_of_no_fault {c : Cmd} (h : faultOfWord c = none) (s : State) :
    ∃ i, runCommand c s = .next (effect i s) := by
  cases hd : decode c with
  | illegal why => exact nomatch (faultOfWord_illegal hd).symm.trans h
  | command i =>
    obtain rfl : encode i = c := eachCommandHasOneEncoding c i hd
    exact ⟨i, (runCommand_command hd s).trans (exec_of_no_fault h s)⟩

/-- Settles O13: by the word's entry in the table; a command that does not fault has its effect, which is on no fault
register. -/
theorem everyWordTakesExactlyTheFaultOfTheTable : Obligations.EveryWordTakesExactlyTheFaultOfTheTable := by
  refine fun c s => ⟨fun k hk => ⟨_, runCommand_of_fault hk s, tookFault_raiseFault k c s⟩, fun hn => ?_⟩
  obtain ⟨i, hi⟩ := runCommand_of_no_fault hn s
  exact ⟨_, hi, effect_faultRegisters i s⟩

/-! ### Which words set which bit of FAULT (R151, R152) -/

theorem bit_lt_three (k : FaultKind) : k.bit < 3 := by cases k <;> decide

theorem toNat_code (k : FaultKind) : k.code.toNat = k.bit + 1 := by cases k <;> rfl

theorem bit_injective : Function.Injective FaultKind.bit := by
  intro k k'; cases k <;> cases k' <;> decide

theorem getLsbD_mark_iff (k k' : FaultKind) (f : BitVec 3) :
    (k'.mark f).getLsbD k.bit = true ↔ f.getLsbD k.bit = true ∨ k' = k := by
  rw [getLsbD_mark k' f (bit_lt_three k), Bool.or_eq_true, beq_iff_eq, bit_injective.eq_iff, eq_comm (a := k)]

theorem runCommand_faultBit {c : Cmd} {s t : State} (h : runCommand c s = .next t) (k : FaultKind) :
    t.fault.getLsbD k.bit = true ↔ s.fault.getLsbD k.bit = true ∨ faultOfWord c = some k := by
  cases hf : faultOfWord c with
  | some k' =>
    obtain rfl := Host.Outcome.next.inj ((runCommand_of_fault hf s).symm.trans h)
    rw [raiseFault_fault, getLsbD_mark_iff, Option.some_inj]
  | none =>
    obtain ⟨i, hi⟩ := runCommand_of_no_fault hf s
    obtain rfl := Host.Outcome.next.inj (hi.symm.trans h)
    obtain ⟨hfault, -, -⟩ := effect_faultRegisters i s
    simp [hfault]

/-- A command that changes a bit of FAULT takes the fault of that bit. -/
theorem faultOfInstr_of_faultBit_ne {i : Instr} {s t : State} (h : exec i s = .next t) {k : FaultKind}
    (hne : t.fault.getLsbD k.bit ≠ s.fault.getLsbD k.bit) : faultOfInstr i = some k := by
  have hbit := runCommand_faultBit ((runCommand_command (decode_encode i) s).trans h) k
  rw [faultOfWord_encode] at hbit
  by_contra hno
  exact hne (Bool.eq_iff_iff.mpr (hbit.trans (or_iff_left hno)))

theorem byteAccess_of_bufferBounds {i : Instr} (h : faultOfInstr i = some .bufferBounds) :
    ∃ a : BitVec 4, 9 ≤ a.toNat ∧ ((∃ d, i = .stb a d) ∨ i = .ldb a) := by
  cases i with
  | stb a d => exact ⟨a, by simpa [faultOfInstr] using h, .inl ⟨d, rfl⟩⟩
  | ldb a => exact ⟨a, by simpa [faultOfInstr] using h, .inr rfl⟩
  | _ => simp [faultOfInstr] at h

theorem encoder_of_rangeError {i : Instr} (h : faultOfInstr i = some .rangeError) :
    (∃ r x, i = .tofse r x ∧ 11468713 ≤ x.toNat) ∨ (∃ r p, i = .prese r p ∧ 6553600 ≤ p.toNat) := by
  cases i with
  | tofse r x => exact .inl ⟨r, x, rfl, by simpa [faultOfInstr] using h⟩
  | prese r p => exact .inr ⟨r, p, rfl, by simpa [faultOfInstr] using h⟩
  | _ => simp [faultOfInstr] at h

/-- Settles O14: a command that changes FAULT bit 1 takes BufferBounds, which is the fault of the byte accesses only. -/
theorem bufferBoundsIsRaisedByByteAccessesOnly : Obligations.BufferBoundsIsRaisedByByteAccessesOnly := by
  obtain ⟨-, hstb⟩ := storeByteWritesItsByteOnly
  obtain ⟨-, hldb⟩ := loadByteReadsItsByte
  exact ⟨hstb, hldb, fun _ _ _ h hne => byteAccess_of_bufferBounds (faultOfInstr_of_faultBit_ne h hne)⟩

/-- Settles O15: a command that changes FAULT bit 2 takes RangeError, which is the fault of the encoders only. -/
theorem rangeErrorIsRaisedByEncodersOnly : Obligations.RangeErrorIsRaisedByEncodersOnly :=
  ⟨fun i _ s hx => exec_tofse_tooLarge hx i s, fun i _ s hp => exec_prese_tooLarge hp i s,
    fun _ _ _ h hne => encoder_of_rangeError (faultOfInstr_of_faultBit_ne h hne)⟩

/-! ### Runs of command words (R158) -/

theorem runCommands_cons_cases {c : Cmd} {cs : List Cmd} {s t : State} (h : runCommands (c :: cs) s = .next t) :
    ∃ u, runCommand c s = .next u ∧ runCommands cs u = .next t := by
  obtain ⟨u, hu⟩ := runCommand_withInputs c s
  exact ⟨_, hu s.inputs, (runCommands_cons (hu s.inputs) cs).symm.trans h⟩

theorem runCommands_faultBit {cs : List Cmd} {s t : State} (h : runCommands cs s = .next t) (k : FaultKind) :
    t.fault.getLsbD k.bit = true ↔ s.fault.getLsbD k.bit = true ∨ ∃ c ∈ cs, faultOfWord c = some k := by
  induction cs generalizing s with
  | nil =>
    obtain rfl := Host.Outcome.next.inj h
    simp
  | cons c cs ih =>
    obtain ⟨u, hc, hcs⟩ := runCommands_cons_cases h
    rw [ih hcs, runCommand_faultBit hc k, List.exists_mem_cons_iff, or_assoc]

/-- A run keeps the record of a fault before it. -/
theorem runCommands_keeps_record {cs : List Cmd} {s t : State} (h : runCommands cs s = .next t) (hs : s.fcause ≠ 0) :
    t.fcause = s.fcause ∧ t.fcmd = s.fcmd := by
  induction cs generalizing s with
  | nil =>
    obtain rfl := Host.Outcome.next.inj h
    exact ⟨rfl, rfl⟩
  | cons c cs ih =>
    obtain ⟨u, hc, hcs⟩ := runCommands_cons_cases h
    obtain ⟨-, hkept⟩ := runCommand_sticky hc
    obtain ⟨hcause, hcmd⟩ := hkept hs
    rw [← hcause, ← hcmd]
    exact ih hcs (hcause ▸ hs)

theorem runCommands_of_no_fault {cs : List Cmd} (hn : ∀ c ∈ cs, faultOfWord c = none) {s t : State}
    (h : runCommands cs s = .next t) : t.fault = s.fault ∧ t.fcause = s.fcause ∧ t.fcmd = s.fcmd := by
  induction cs generalizing s with
  | nil =>
    obtain rfl := Host.Outcome.next.inj h
    exact ⟨rfl, rfl, rfl⟩
  | cons c cs ih =>
    obtain ⟨hc, hcs⟩ := List.forall_mem_cons.mp hn
    obtain ⟨i, hi⟩ := runCommand_of_no_fault hc s
    obtain ⟨hfault, hcause, hcmd⟩ := effect_faultRegisters i s
    rw [← hfault, ← hcause, ← hcmd]
    exact ih hcs ((runCommands_cons hi cs).symm.trans h)

/-- A faulting word after words that do not fault is the first fault, and the run behind it keeps its record. -/
theorem runCommands_first_fault {as bs : List Cmd} {c : Cmd} {k : FaultKind} (has : ∀ a ∈ as, faultOfWord a = none)
    (hc : faultOfWord c = some k) {s t : State} (hs : s.fcause = 0) (h : runCommands (as ++ c :: bs) s = .next t) :
    t.fcause = k.code ∧ t.fcmd = c := by
  induction as generalizing s with
  | nil =>
    have hrun := (runCommands_cons (runCommand_of_fault hc s) bs).symm.trans h
    obtain ⟨hcause, hcmd⟩ := runCommands_keeps_record hrun (fcause_raiseFault_ne_zero k c s)
    rw [hcause, hcmd, raiseFault_first hs]
    exact ⟨rfl, rfl⟩
  | cons a as ih =>
    obtain ⟨ha, has⟩ := List.forall_mem_cons.mp has
    obtain ⟨i, hi⟩ := runCommand_of_no_fault ha s
    obtain ⟨-, hcause, -⟩ := effect_faultRegisters i s
    exact ih has (hcause.trans hs) ((runCommands_cons hi _).symm.trans h)

/-- Settles O17: each word sets the bit of its own fault; the run splits at its first faulting word, if it has one. -/
theorem faultRegistersDescribeTheWholeRun : Obligations.FaultRegistersDescribeTheWholeRun := by
  intro cs s t hfault hcause hrun
  refine ⟨fun k => ?_, fun c hfind => ?_, fun hfind => ?_⟩
  · rw [runCommands_faultBit hrun k, hfault]
    simp
  · obtain ⟨hc, as, bs, rfl, has⟩ := List.find?_eq_some_iff_append.mp hfind
    obtain ⟨k, hk⟩ := Option.isSome_iff_exists.mp hc
    obtain ⟨hfirst, hword⟩ := runCommands_first_fault (by simpa using has) hk hcause hrun
    exact ⟨hword, k, hk, hfirst ▸ toNat_code k⟩
  · obtain ⟨hfault', hcause', hcmd⟩ := runCommands_of_no_fault (by simpa using hfind) hrun
    exact ⟨hfault'.trans hfault, hcause'.trans hcause, hcmd⟩

end Sys2Proof.Machine
end

section
/-! The step with no pending input: the state is unchanged between commands (R176; log 1). -/

namespace Sys2Proof.Machine

/-- Settles O9: with no pending input the step takes nothing and answers the state it was given. -/
theorem stepWithoutInputLeavesTheState : Obligations.StepWithoutInputLeavesTheState :=
  fun _ hs => step_of_no_input hs

end Sys2Proof.Machine
end

section
/-! The table of worked encodings (section 7): its words are the encodings of the commands of its lines. -/

namespace Sys2Proof.Machine

theorem decode_of_encode {i : Instr} {c : Cmd} (h : encode i = c) : decode c = .command i :=
  h ▸ decode_encode i

/-- Settles O1: the word of each line is the one encoding of its command, a closed equation, and an encoding decodes to
its command. -/
theorem workedEncodingsDecodeToTheirCommands : Obligations.WorkedEncodingsDecodeToTheirCommands := by
  unfold Obligations.WorkedEncodingsDecodeToTheirCommands
  and_intros <;> exact decode_of_encode (by decide)

end Sys2Proof.Machine
end
